-- ==== Sys2Proof/Word.lean ====
section
/-! DEFINITION. The word types of the machine (spec/00_scope.md R6, R8): 8-bit data, 16-bit words and addresses, and the 4-
and 12-bit fields of an instruction word. Every value is unsigned. -/

namespace Sys2Proof

/-- A data byte: the width of V0 to VF, of the timers and of a memory cell (R6). -/
abbrev Byte := BitVec 8

/-- A 16-bit instruction word (R80). -/
abbrev Word := BitVec 16

/-- A 16-bit address: the width of PC, I and a stack entry (R6, R50). -/
abbrev Addr := BitVec 16

/-- A 4-bit field of an instruction word (R8); also a key code 0x0 to 0xF (R36) and a sprite's row count (R83). -/
abbrev Nibble := BitVec 4

/-- The index of a general register V0 to VF (R20). -/
abbrev Reg := BitVec 4

/-- The 12-bit address literal `nnn` (R83). -/
abbrev Imm12 := BitVec 12

end Sys2Proof
end

