-- ==== Sys2Proof/Syntax.lean ====
section
/-! DEFINITION. The instruction set: one constructor for each of the 34 rows of spec/30_encoding.md R84, with the operands
the row names (R81, R83). An operand's type has exactly the field's width, so a value the field cannot hold cannot be
written. -/

namespace Sys2Proof

/-- The 34 instructions, in the order of the opcode map (R84). -/
inductive Instr where
  /-- `00E0` CLS (R132). -/
  | cls
  /-- `00EE` RET (R151). -/
  | ret
  /-- `1nnn` JP nnn (R152). -/
  | jp (nnn : Imm12)
  /-- `2nnn` CALL nnn (R153). -/
  | call (nnn : Imm12)
  /-- `3xkk` SE Vx, kk (R154). -/
  | seImm (x : Reg) (kk : Byte)
  /-- `4xkk` SNE Vx, kk (R155). -/
  | sneImm (x : Reg) (kk : Byte)
  /-- `5xy0` SE Vx, Vy (R156). -/
  | seReg (x y : Reg)
  /-- `6xkk` LD Vx, kk (R172). -/
  | ldImm (x : Reg) (kk : Byte)
  /-- `7xkk` ADD Vx, kk (R173). -/
  | addImm (x : Reg) (kk : Byte)
  /-- `8xy0` LD Vx, Vy (R174). -/
  | ldReg (x y : Reg)
  /-- `8xy1` OR Vx, Vy (R175). -/
  | orReg (x y : Reg)
  /-- `8xy2` AND Vx, Vy (R176). -/
  | andReg (x y : Reg)
  /-- `8xy3` XOR Vx, Vy (R177). -/
  | xorReg (x y : Reg)
  /-- `8xy4` ADD Vx, Vy (R178). -/
  | addReg (x y : Reg)
  /-- `8xy5` SUB Vx, Vy (R179). -/
  | subReg (x y : Reg)
  /-- `8xy6` SHR Vx (R180); the word's y is ignored (R88). -/
  | shr (x : Reg)
  /-- `8xy7` SUBN Vx, Vy (R181). -/
  | subnReg (x y : Reg)
  /-- `8xyE` SHL Vx (R182); the word's y is ignored (R88). -/
  | shl (x : Reg)
  /-- `9xy0` SNE Vx, Vy (R157). -/
  | sneReg (x y : Reg)
  /-- `Annn` LD I, nnn (R200). -/
  | ldI (nnn : Imm12)
  /-- `Bnnn` JP V0, nnn (R158). -/
  | jpV0 (nnn : Imm12)
  /-- `Cxkk` RND Vx, kk (R183). -/
  | rnd (x : Reg) (kk : Byte)
  /-- `Dxyn` DRW Vx, Vy, n (R133). -/
  | drw (x y : Reg) (n : Nibble)
  /-- `Ex9E` SKP Vx (R221). -/
  | skp (x : Reg)
  /-- `ExA1` SKNP Vx (R222). -/
  | sknp (x : Reg)
  /-- `Fx07` LD Vx, DT (R223). -/
  | ldVxDT (x : Reg)
  /-- `Fx0A` LD Vx, K (R224). -/
  | ldVxK (x : Reg)
  /-- `Fx15` LD DT, Vx (R225). -/
  | ldDTVx (x : Reg)
  /-- `Fx18` LD ST, Vx (R226). -/
  | ldSTVx (x : Reg)
  /-- `Fx1E` ADD I, Vx (R201). -/
  | addI (x : Reg)
  /-- `Fx29` LD F, Vx (R202). -/
  | ldF (x : Reg)
  /-- `Fx33` LD B, Vx (R203). -/
  | ldB (x : Reg)
  /-- `Fx55` LD [I], Vx (R204). -/
  | ldMemVx (x : Reg)
  /-- `Fx65` LD Vx, [I] (R205). -/
  | ldVxMem (x : Reg)
  deriving DecidableEq, Repr

end Sys2Proof
end

