-- ==== Sys2Proof/Config.lean ====
section
/-! DEFINITION. What the spec leaves to the outside (spec/00_scope.md R7). The random byte is a free value. The font is state
(`Machine.State.font`, R41) with its default table in Machine/Font.lean; the two colours are arguments of
`Machine.displayBuffer`; the host schedule is the field `Machine.State.schedule`. -/

namespace Sys2Proof.Config

/-- `RAND` (R7, R183, decision D9): the byte the k-th execution of Cxkk draws. A free value: it has no body, so that a claim
holds for every sequence of draws. See notes/assumptions/1.md. -/
opaque randByte : Nat → Byte

end Sys2Proof.Config
end

