-- ==== Sys2Proof/Machine/State.lean ====
section
/-! DEFINITION. The state of the block (spec/10_state.md R20 to R41), as plain data, the reasons a step can stop, and the
state after reset. INVENTORY.md lists every field with its rule and reset value. -/

namespace Sys2Proof.Machine

/-- A fatal condition of the block with the info it records (spec/60_exceptions.md R242). Raising one is an effect the spec
gives (RUN becomes `Faulted(kind, info)`, R241): it is a next state of the model and no `Fault` below. -/
inductive FatalCondition where
  /-- Code 1: CALL with SP = 15. -/
  | stackOverflow
  /-- Code 2: RET with SP = 0. -/
  | stackUnderflow
  /-- Code 3: `write_byte` outside 0x200 to 0xFFF; info the address. -/
  | invalidWrite (addr : Addr)
  /-- Code 4: `glyph_address` of a digit above 0xF; info the digit value. -/
  | invalidGlyph (digit : Byte)
  /-- Code 5: a ROM longer than 3584 bytes; info the first address past 0xFFF. -/
  | romOverrun (addr : Nat)
  /-- Code 6: a key code above 0xF in Ex9E or ExA1; info the value of V[x]. -/
  | keyIndexOutOfRange (code : Byte)
  /-- Code 7: a checked address sum above 0xFFFF; info the sum. -/
  | addressOverflow (sum : Nat)
  deriving DecidableEq, Repr

/-- `RUN`, the Machine's state (R39, R108): the source's `waiting_for_input` is `waitingForKey`. -/
inductive RunState where
  | running
  | waitingForKey (x : Reg)
  | faulted (c : FatalCondition)
  deriving DecidableEq, Repr

/-- An event on the diagnostic output (R246). -/
inductive Diagnostic where
  | unknownOpcode (w : Word)
  deriving DecidableEq, Repr

/-- One operation the host performs on the block between power-up's ROM load and the end of the run (R263, R267). A key code
is a nibble: the spec admits no `set_pressed` above 0xF (R257, decision D25). -/
inductive HostOp where
  | advance
  | decrementTimers
  | setPressed (code : Nibble) (pressed : Bool)
  deriving DecidableEq, Repr

/-- Program space: the nonzero bytes of 0x200 to 0xFFF (R31), addresses strictly rising; an unlisted one is zero. -/
abbrev Memory := List Host.Cell

/-- The pixels `FB[y][x]`: 32 rows of 64 columns, `true` = on (R34). -/
abbrev Framebuffer := Vector (Vector Bool 64) 32

/-- Everything the spec gives the machine (R20 to R41) and three fields of the model's own: `diagnostics`, `randDraws` and
`schedule` (notes/assumptions/1.md, 4.md, 5.md). -/
structure State where
  /-- V0 to VF (R20); VF is also the flag register (R21). -/
  v : Vector Byte 16
  /-- The index register I (R25). -/
  i : Addr
  /-- The program counter (R23). -/
  pc : Addr
  /-- The stack pointer, 8 bits, legal range 0 to 15 (R26). -/
  sp : Byte
  /-- The 16 return addresses (R27). -/
  stack : Vector Addr 16
  /-- The delay timer (R29). -/
  dt : Byte
  /-- The sound timer (R29). -/
  st : Byte
  /-- The font ROM, 0x000 to 0x04F (R31, R32). -/
  font : Vector Byte 80
  /-- Program space, 0x200 to 0xFFF (R31, R33). -/
  mem : Memory
  /-- The framebuffer (R34). -/
  fb : Framebuffer
  /-- `KEY[0]` to `KEY[15]`, `true` = pressed (R36). -/
  key : Vector Bool 16
  /-- The Machine state RUN (R39). -/
  run : RunState
  /-- The model's record of the diagnostic output, oldest event first (R246). -/
  diagnostics : List Diagnostic
  /-- How many random bytes have been drawn: the model's index into `Config.randByte` (R183). -/
  randDraws : Nat
  /-- What the host does next, first operation first; when nothing is listed it calls `advance()` (R118, decision D20). -/
  schedule : List HostOp
  deriving DecidableEq, Repr

/-- The model's own stops. -/
inductive Fault where
  /-- Raised by RET and CALL when SP is above 15, where `STACK` has no entry to read or write: SP is in 0 to 15 in every
  reachable state (R26, R28), so no run from reset raises it. Safe. -/
  | stackIndexOutOfRange (sp : Byte)
  deriving DecidableEq, Repr

/-- The reasons an instruction has no meaning. -/
inductive Refusal where
  /-- Raised by `exec` alone, for an instruction whose meaning is not written yet; no arm raises it now. Safe. -/
  | notModelled (mnemonic : String)
  deriving DecidableEq, Repr

/-- What a step, or an instruction's meaning, answers. -/
abbrev Result := Host.Outcome State Fault Refusal

/-- The state when the Machine is constructed, before the ROM is loaded (R41). PC and RUN are the source's; the zeros are the
spec's decisions D1 to D4, the font is its default (notes/assumptions/3.md, 6.md, 7.md). -/
def State.reset : State where
  v := Vector.replicate 16 0
  i := 0
  pc := 0x200
  sp := 0
  stack := Vector.replicate 16 0
  dt := 0
  st := 0
  font := defaultFont
  mem := []
  fb := Vector.replicate 32 (Vector.replicate 64 false)
  key := Vector.replicate 16 false
  run := .running
  diagnostics := []
  randDraws := 0
  schedule := []

end Sys2Proof.Machine
end

