-- ==== Sys2Proof/Machine/Ops.lean ====
section
/-! DEFINITION. The operations the meanings share: raising a fatal condition, checked address arithmetic, registers, memory,
keys and the diagnostic output (spec/00_scope.md R9 to R12, spec/20_memory.md, spec/60_exceptions.md). -/

namespace Sys2Proof.Machine

/-! ### Fatal conditions (R12, R241 to R244) -/

/-- The code of a kind (R242). -/
def FatalCondition.code : FatalCondition → Nat
  | .stackOverflow => 1
  | .stackUnderflow => 2
  | .invalidWrite _ => 3
  | .invalidGlyph _ => 4
  | .romOverrun _ => 5
  | .keyIndexOutOfRange _ => 6
  | .addressOverflow _ => 7

/-- The info a kind records (R242). -/
def FatalCondition.info : FatalCondition → Option Nat
  | .stackOverflow => none
  | .stackUnderflow => none
  | .invalidWrite addr => some addr.toNat
  | .invalidGlyph digit => some digit.toNat
  | .romOverrun addr => some addr
  | .keyIndexOutOfRange code => some code.toNat
  | .addressOverflow sum => some sum

/-- Fault entry: nothing is saved and no handler runs; RUN becomes `Faulted` and what was written stays written
(R12, R241, R243). There is no return from it (R244). -/
def State.fail (s : State) (c : FatalCondition) : State := { s with run := .faulted c }

/-- `raise Fault(kind, info)`: the one operation by which an instruction takes a fatal condition (R12, R241). -/
def raise (c : FatalCondition) (s : State) : Result := .next (s.fail c)

/-- The end of an instruction that works through several bytes: what it has done so far stands, and where it met a fatal
condition it raises it (R243, decision D22). -/
def finish (s : State) : Option FatalCondition → Result
  | none => .next s
  | some c => raise c s

/-! ### Address arithmetic (R11) -/

/-- `add16c(a, k)`: the sum where it fits 16 bits, otherwise `AddressOverflow` with the sum (R11). -/
def add16c (a : Addr) (k : Nat) : Except FatalCondition Addr :=
  if a.toNat + k ≤ 0xFFFF then .ok (BitVec.ofNat 16 (a.toNat + k)) else .error (.addressOverflow (a.toNat + k))

/-! ### Registers (R9, R20, R21) -/

/-- `V[x]` (R9). -/
def State.getV (s : State) (x : Reg) : Byte := s.v[x.toNat]'x.isLt

/-- `V[x] <- b` (R9). -/
def State.setV (s : State) (x : Reg) (b : Byte) : State := { s with v := s.v.set x.toNat b x.isLt }

/-! ### Memory (R50 to R57) -/

/-- The stored byte at an address of program space; an unlisted one reads as zero (R31, decision D3). -/
def Memory.lookup : Memory → Nat → Byte
  | [], _ => 0
  | (k, b) :: rest, a => if k = a then b else Memory.lookup rest a

/-- A memory without the cell at `a`. -/
def Memory.erase (m : Memory) (a : Nat) : Memory := m.filter (fun c => c.1 != a)

/-- A memory with the cell `(a, b)` in its place among the rising addresses. -/
def Memory.insert : Memory → Nat → Byte → Memory
  | [], a, b => [(a, b)]
  | (k, c) :: rest, a, b => if a < k then (a, b) :: (k, c) :: rest else (k, c) :: Memory.insert rest a b

/-- Store a byte, keeping the canonical form: a zero is what an unlisted address reads as, so it is not listed. -/
def Memory.store (m : Memory) (a : Nat) (b : Byte) : Memory :=
  if b = 0 then Memory.erase m a else Memory.insert (Memory.erase m a) a b

/-- Program space, 0x200 to 0xFFF: the only addresses that can be written (R50, R55). -/
abbrev inProgramSpace (a : Nat) : Prop := 0x200 ≤ a ∧ a ≤ 0xFFF

/-- The canonical form of program space: addresses strictly rising, each in 0x200 to 0xFFF, no zero byte listed. -/
abbrev Memory.wf (m : Memory) : Prop :=
  m.Pairwise (fun p q => p.1 < q.1) ∧ ∀ c ∈ m, inProgramSpace c.1 ∧ c.2 ≠ 0

/-- `MemRead(addr, 1)`, total over the 16-bit addresses: the glyph byte in the font region, the stored byte in program space,
otherwise zero (R53). -/
def State.readByte (s : State) (a : Addr) : Byte :=
  if h : a.toNat < 80 then s.font[a.toNat]
  else if inProgramSpace a.toNat then Memory.lookup s.mem a.toNat
  else 0

/-- `MemRead(addr, 2)`, big-endian; `AddressOverflow` on the second byte at 0xFFFF (R54). -/
def State.readWord (s : State) (a : Addr) : Except FatalCondition Word :=
  match add16c a 1 with
  | .error c => .error c
  | .ok a1 => .ok (wordOfBytes (s.readByte a) (s.readByte a1))

/-- `MemWrite(addr, 1, b)`: stores in program space, `InvalidWrite` anywhere else (R55). -/
def writeByte (m : Memory) (a : Addr) (b : Byte) : Except FatalCondition Memory :=
  if inProgramSpace a.toNat then .ok (Memory.store m a.toNat b) else .error (.invalidWrite a)

/-- `MemWrite(add16c(base, k), 1, ·)` of the listed bytes for k = `k`, `k+1`, …, in increasing order, up to the first fatal
condition; the bytes before it stay written (R63, R203, R204, decision D22). -/
def storeBytes (base : Addr) : Nat → List Byte → Memory → Memory × Option FatalCondition
  | _, [], m => (m, none)
  | k, b :: rest, m =>
    match add16c base k with
    | .error c => (m, some c)
    | .ok a =>
      match writeByte m a b with
      | .error c => (m, some c)
      | .ok m' => storeBytes base (k + 1) rest m'

/-- `V[j] <- MemRead(add16c(base, j), 1)` for `n` registers from j = `k` up, in increasing order, up to the first fatal
condition; the registers before it stay written (R63, R205, decision D22). -/
def loadRegs (base : Addr) : Nat → Nat → State → State × Option FatalCondition
  | _, 0, s => (s, none)
  | k, n + 1, s =>
    match add16c base k with
    | .error c => (s, some c)
    | .ok a => loadRegs base (k + 1) n (s.setV (BitVec.ofNat 4 k) (s.readByte a))

/-! ### Keys (R258, R259) -/

/-- `is_pressed(k)` (R258). -/
def State.isPressed (s : State) (k : Nibble) : Bool := s.key[k.toNat]'k.isLt

/-- `first_pressed_key()`: the lowest pressed code, scanning from 0x0 (R259). -/
def State.firstPressedKey (s : State) : Option Nibble :=
  ((List.range 16).map (BitVec.ofNat 4)).find? s.isPressed

/-! ### Outputs and inputs (R246, R183) -/

/-- `emit Diagnostic(info)`: an event on the diagnostic output, no other change (R12, R246). -/
def State.emit (s : State) (d : Diagnostic) : State := { s with diagnostics := s.diagnostics ++ [d] }

/-- `draw RAND`: the next random byte (R12, R183). -/
def State.randByte (s : State) : Byte := Config.randByte s.randDraws

/-- The state once the byte `State.randByte` gives has been drawn. -/
def State.drawn (s : State) : State := { s with randDraws := s.randDraws + 1 }

end Sys2Proof.Machine
end

