-- ==== Sys2Proof/Machine/Flags.lean ====
section
/-! DEFINITION. The flag register VF and every flag computation of the spec (spec/10_state.md R21, spec/43_alu.md R170, R178
to R182, spec/41_display.md R133). -/

namespace Sys2Proof.Machine

/-- VF, the register that doubles as the flag (R21). -/
def flagReg : Reg := 0xF

/-- A flag as VF holds it: 0x01 or 0x00. -/
def flagByte (f : Bool) : Byte := if f then 0x01 else 0x00

/-- `V[0xF] <- (f ? 0x01 : 0x00)`. -/
def State.setFlag (s : State) (f : Bool) : State := s.setV flagReg (flagByte f)

/-- 8xy4: carry out of bit 7, the true sum above 255 (R178). -/
def carryOut (a b : Byte) : Bool := decide (255 < a.toNat + b.toNat)

/-- 8xy5 and 8xy7: strictly greater, unsigned, on the values before the subtraction (R179, R181). -/
def strictlyGreater (a b : Byte) : Bool := decide (b.toNat < a.toNat)

/-- 8xy6: bit 0 before the shift (R180). -/
def bitShiftedRight (a : Byte) : Bool := a.getLsbD 0

/-- 8xyE: bit 7 before the shift (R182). -/
def bitShiftedLeft (a : Byte) : Bool := a.getLsbD 7

end Sys2Proof.Machine
end

