-- ==== Sys2Proof/Machine/Alu.lean ====
section
/-! DEFINITION. Register and arithmetic instructions: 6xkk, 7xkk, 8xy0 to 8xyE, Cxkk (spec/43_alu.md R170 to R183). The
statements of 8xy4 to 8xyE run in the order of the spec's table, so that a destination that is VF ends as R171 says
(decision D7, notes/assumptions/8.md). -/

namespace Sys2Proof.Machine

/-- `6xkk` LD Vx, kk (R172). -/
def execLdImm (x : Reg) (kk : Byte) (s : State) : Result := .next (s.setV x kk)

/-- `7xkk` ADD Vx, kk (R173): wraps, no flag. -/
def execAddImm (x : Reg) (kk : Byte) (s : State) : Result := .next (s.setV x (s.getV x + kk))

/-- `8xy0` LD Vx, Vy (R174). -/
def execLdReg (x y : Reg) (s : State) : Result := .next (s.setV x (s.getV y))

/-- `8xy1` OR Vx, Vy (R175). -/
def execOrReg (x y : Reg) (s : State) : Result := .next (s.setV x (s.getV x ||| s.getV y))

/-- `8xy2` AND Vx, Vy (R176). -/
def execAndReg (x y : Reg) (s : State) : Result := .next (s.setV x (s.getV x &&& s.getV y))

/-- `8xy3` XOR Vx, Vy (R177). -/
def execXorReg (x y : Reg) (s : State) : Result := .next (s.setV x (s.getV x ^^^ s.getV y))

/-- The result goes to Vx first and the flag to VF second (R171). -/
def State.resultThenFlag (s : State) (x : Reg) (result : Byte) (flag : Bool) : State := (s.setV x result).setFlag flag

/-- The flag goes to VF first and the shift then operates on Vx as it stands (R171). -/
def State.flagThenShift (s : State) (x : Reg) (flag : Bool) (shift : Byte → Byte) : State :=
  let s1 := s.setFlag flag
  s1.setV x (shift (s1.getV x))

/-- `8xy4` ADD Vx, Vy (R178). -/
def execAddReg (x y : Reg) (s : State) : Result :=
  .next (s.resultThenFlag x (s.getV x + s.getV y) (carryOut (s.getV x) (s.getV y)))

/-- `8xy5` SUB Vx, Vy (R179). -/
def execSubReg (x y : Reg) (s : State) : Result :=
  .next (s.resultThenFlag x (s.getV x - s.getV y) (strictlyGreater (s.getV x) (s.getV y)))

/-- `8xy6` SHR Vx (R180); y is not an operand (R88). -/
def execShr (x : Reg) (s : State) : Result := .next (s.flagThenShift x (bitShiftedRight (s.getV x)) (· >>> 1))

/-- `8xy7` SUBN Vx, Vy (R181). -/
def execSubnReg (x y : Reg) (s : State) : Result :=
  .next (s.resultThenFlag x (s.getV y - s.getV x) (strictlyGreater (s.getV y) (s.getV x)))

/-- `8xyE` SHL Vx (R182); y is not an operand (R88). -/
def execShl (x : Reg) (s : State) : Result := .next (s.flagThenShift x (bitShiftedLeft (s.getV x)) (· <<< 1))

/-- `Cxkk` RND Vx, kk (R183). -/
def execRnd (x : Reg) (kk : Byte) (s : State) : Result := .next (s.drawn.setV x (s.randByte &&& kk))

end Sys2Proof.Machine
end

