-- ==== Sys2Proof/Machine/Display.lean ====
section
/-! DEFINITION. The framebuffer primitives and the display instructions 00E0 and Dxyn (spec/41_display.md R130 to R133), and
the view the host reads (spec/10_state.md R35). -/

namespace Sys2Proof.Machine

/-- `FB[y][x]` (R34). -/
def Framebuffer.pixel (fb : Framebuffer) (x : Fin 64) (y : Fin 32) : Bool := fb[y.val][x.val]

/-- `FB[y][x] <- b` (R34). -/
def Framebuffer.setPixel (fb : Framebuffer) (x : Fin 64) (y : Fin 32) (b : Bool) : Framebuffer :=
  fb.set y.val (fb[y.val].set x.val b)

/-- The column a coordinate wraps to (R130). -/
def wrapX (x : Nat) : Fin 64 := ⟨x % 64, Nat.mod_lt _ (by decide)⟩

/-- The row a coordinate wraps to (R130). -/
def wrapY (y : Nat) : Fin 32 := ⟨y % 32, Nat.mod_lt _ (by decide)⟩

/-- `xor_pixel(x, y)`: toggles the pixel at the wrapped coordinates and reports whether it was on (R130). -/
def xorPixel (fb : Framebuffer) (x y : Nat) : Framebuffer × Bool :=
  let prev := fb.pixel (wrapX x) (wrapY y)
  (fb.setPixel (wrapX x) (wrapY y) (!prev), prev)

/-- `clear_display()`: every pixel off (R131). -/
def clearDisplay : Framebuffer := Vector.replicate 32 (Vector.replicate 64 false)

/-- A draw under way: the framebuffer so far and whether any pixel has collided (R133). -/
structure Drawing where
  fb : Framebuffer
  collided : Bool
  deriving DecidableEq, Repr

/-- Column c of a sprite row: `xor_pixel` where bit 7 - c is set, nothing where it is clear (R133, decision D10). -/
def drawBit (px y : Nat) (b : Byte) (d : Drawing) (c : Nat) : Drawing :=
  if b.getLsbD (7 - c) then
    let (fb', hit) := xorPixel d.fb (px + c) y
    ⟨fb', d.collided || hit⟩
  else d

/-- One sprite row: its columns 0 to 7 in order (R133). -/
def drawRow (px y : Nat) (b : Byte) (d : Drawing) : Drawing := (List.range 8).foldl (drawBit px y b) d

/-- `n` sprite rows from row `r` on, in increasing order, up to the first fatal condition; the rows before it stay drawn
(R133, decision D22). -/
def drawRows (s : State) (px py : Nat) : Nat → Nat → Drawing → Drawing × Option FatalCondition
  | _, 0, d => (d, none)
  | r, n + 1, d =>
    match add16c s.i r with
    | .error c => (d, some c)
    | .ok a => drawRows s px py (r + 1) n (drawRow px (py + r) (s.readByte a) d)

/-- `00E0` CLS (R132). -/
def execCls (s : State) : Result := .next { s with fb := clearDisplay }

/-- `Dxyn` DRW Vx, Vy, n (R133): both coordinates are read first and VF is written last. -/
def execDrw (x y : Reg) (n : Nibble) (s : State) : Result :=
  match drawRows s (s.getV x).toNat (s.getV y).toNat 0 n.toNat ⟨s.fb, false⟩ with
  | (d, some c) => raise c { s with fb := d.fb }
  | (d, none) => .next (State.setFlag { s with fb := d.fb } d.collided)

/-- `display_buffer()`: the 2048 colours, row-major, given the two colour values, which the spec leaves open (R7, R35,
R265). -/
def displayBuffer {Colour : Type} (colourOn colourOff : Colour) (s : State) : Vector Colour 2048 :=
  Vector.ofFn fun k => if s.fb.pixel (wrapX k.val) (wrapY (k.val / 64)) then colourOn else colourOff

end Sys2Proof.Machine
end

