-- ==== Sys2Proof/Machine/Operands.lean ====
section
/-! DEFINITION. Operand assembly (spec/30_encoding.md R83) and the checks on an operand's value (spec/20_memory.md R58,
spec/45_keys_timers.md R220). -/

namespace Sys2Proof.Machine

/-- `zext_16(nnn)`: a 12-bit literal as an address (R83). -/
def addrOfImm (nnn : Imm12) : Addr := nnn.setWidth 16

/-- `zext_16(b)`: a byte as a 16-bit value (R83). -/
def addrOfByte (b : Byte) : Addr := b.setWidth 16

/-- `glyph_address(d)`: `d * 5`, or `InvalidGlyph` above 0xF (R58). -/
def glyphAddress (d : Byte) : Except FatalCondition Addr :=
  if 0x0F < d.toNat then .error (.invalidGlyph d) else .ok (BitVec.ofNat 16 (d.toNat * 5))

/-- `key_index(v)`: the key code, or `KeyIndexOutOfRange` above 0xF (R220). -/
def keyIndex (b : Byte) : Except FatalCondition Nibble :=
  if 0x0F < b.toNat then .error (.keyIndexOutOfRange b) else .ok (b.setWidth 4)

/-- The values of V0 to Vx, in order: what Fx55 stores (R204). -/
def State.regsUpTo (s : State) (x : Reg) : List Byte :=
  (List.range (x.toNat + 1)).map (fun k => s.getV (BitVec.ofNat 4 k))

/-- The decimal digits of a byte, hundreds first (R203, R206). -/
def bcdDigits (b : Byte) : List Byte :=
  [BitVec.ofNat 8 (b.toNat / 100), BitVec.ofNat 8 (b.toNat / 10 % 10), BitVec.ofNat 8 (b.toNat % 10)]

end Sys2Proof.Machine
end

