-- ==== Sys2Proof/Machine/Flow.lean ====
section
/-! DEFINITION. Control transfer: 00EE, 1nnn, 2nnn, 3xkk, 4xkk, 5xy0, 9xy0, Bnnn (spec/42_flow.md R150 to R158). PC already
holds the instruction's address + 2 when a meaning runs (R103). -/

namespace Sys2Proof.Machine

/-- `skip()`: PC over one more word (R150). -/
def skip (s : State) : Result :=
  match add16c s.pc 2 with
  | .error c => raise c s
  | .ok pc => .next { s with pc := pc }

/-- `if cond: skip()` and continue (R154 to R157, R221, R222). -/
def skipIf (cond : Bool) (s : State) : Result := if cond then skip s else .next s

/-- `00EE` RET (R151). Above 15 SP names no stack entry: see `Fault.stackIndexOutOfRange`. -/
def execRet (s : State) : Result :=
  if s.sp = 0 then raise .stackUnderflow s
  else if h : s.sp.toNat < 16 then .next { s with pc := s.stack[s.sp.toNat], sp := s.sp - 1 }
  else .fault (.stackIndexOutOfRange s.sp)

/-- `1nnn` JP nnn (R152). -/
def execJp (nnn : Imm12) (s : State) : Result := .next { s with pc := addrOfImm nnn }

/-- `2nnn` CALL nnn (R153): the return address goes to the entry above SP. Above 15 there is none: see
`Fault.stackIndexOutOfRange`. -/
def execCall (nnn : Imm12) (s : State) : Result :=
  if s.sp = 15 then raise .stackOverflow s
  else if h : s.sp.toNat < 15 then
    .next { s with sp := s.sp + 1, stack := s.stack.set (s.sp.toNat + 1) s.pc, pc := addrOfImm nnn }
  else .fault (.stackIndexOutOfRange s.sp)

/-- `3xkk` SE Vx, kk (R154). -/
def execSeImm (x : Reg) (kk : Byte) (s : State) : Result := skipIf (s.getV x == kk) s

/-- `4xkk` SNE Vx, kk (R155). -/
def execSneImm (x : Reg) (kk : Byte) (s : State) : Result := skipIf (s.getV x != kk) s

/-- `5xy0` SE Vx, Vy (R156). -/
def execSeReg (x y : Reg) (s : State) : Result := skipIf (s.getV x == s.getV y) s

/-- `9xy0` SNE Vx, Vy (R157). -/
def execSneReg (x y : Reg) (s : State) : Result := skipIf (s.getV x != s.getV y) s

/-- `Bnnn` JP V0, nnn (R158): the sum is not masked and cannot overflow 16 bits (decision D23). -/
def execJpV0 (nnn : Imm12) (s : State) : Result :=
  .next { s with pc := addrOfImm nnn + addrOfByte (s.getV 0x0) }

end Sys2Proof.Machine
end

