-- ==== Sys2Proof/Machine/IndexMemory.lean ====
section
/-! DEFINITION. Index register and memory instructions: Annn, Fx1E, Fx29, Fx33, Fx55, Fx65 (spec/44_index_memory.md R200 to
R206). None of the memory instructions changes I (decision D21). -/

namespace Sys2Proof.Machine

/-- `Annn` LD I, nnn (R200). -/
def execLdI (nnn : Imm12) (s : State) : Result := .next { s with i := addrOfImm nnn }

/-- `Fx1E` ADD I, Vx (R201): the one address sum that wraps. -/
def execAddI (x : Reg) (s : State) : Result := .next { s with i := s.i + addrOfByte (s.getV x) }

/-- `Fx29` LD F, Vx (R202): the whole byte is checked. -/
def execLdF (x : Reg) (s : State) : Result :=
  match glyphAddress (s.getV x) with
  | .error c => raise c s
  | .ok a => .next { s with i := a }

/-- Store bytes at I, I+1, … and finish (R203, R204). -/
def storeAtI (bytes : List Byte) (s : State) : Result :=
  match storeBytes s.i 0 bytes s.mem with
  | (m, c) => finish { s with mem := m } c

/-- `Fx33` LD B, Vx (R203, R206). -/
def execLdB (x : Reg) (s : State) : Result := storeAtI (bcdDigits (s.getV x)) s

/-- `Fx55` LD [I], Vx (R204). -/
def execLdMemVx (x : Reg) (s : State) : Result := storeAtI (s.regsUpTo x) s

/-- `Fx65` LD Vx, [I] (R205). -/
def execLdVxMem (x : Reg) (s : State) : Result :=
  match loadRegs s.i 0 (x.toNat + 1) s with
  | (s', c) => finish s' c

end Sys2Proof.Machine
end

