-- ==== Sys2Proof/Machine/KeysTimers.lean ====
section
/-! DEFINITION. Keypad and timer instructions: Ex9E, ExA1, Fx07, Fx0A, Fx15, Fx18 (spec/45_keys_timers.md R220 to R226). -/

namespace Sys2Proof.Machine

/-- `Ex9E` SKP Vx (R221): the key index is checked before the skip (R245). -/
def execSkp (x : Reg) (s : State) : Result :=
  match keyIndex (s.getV x) with
  | .error c => raise c s
  | .ok k => skipIf (s.isPressed k) s

/-- `ExA1` SKNP Vx (R222). -/
def execSknp (x : Reg) (s : State) : Result :=
  match keyIndex (s.getV x) with
  | .error c => raise c s
  | .ok k => skipIf (!s.isPressed k) s

/-- `Fx07` LD Vx, DT (R223). -/
def execLdVxDT (x : Reg) (s : State) : Result := .next (s.setV x s.dt)

/-- `Fx0A` LD Vx, K (R224): the step signals `WaitForKey(x)`, on which the Machine enters the wait (R111); the key code
arrives by `pollKey` on a later tick (R113). -/
def execLdVxK (x : Reg) (s : State) : Result := .next { s with run := .waitingForKey x }

/-- `Fx15` LD DT, Vx (R225). -/
def execLdDTVx (x : Reg) (s : State) : Result := .next { s with dt := s.getV x }

/-- `Fx18` LD ST, Vx (R226). -/
def execLdSTVx (x : Reg) (s : State) : Result := .next { s with st := s.getV x }

end Sys2Proof.Machine
end

