-- ==== Sys2Proof/Machine/Tick.lean ====
section
/-! DEFINITION. The operations the host drives (spec/60_exceptions.md R263): `advance()`, with the CPU step and the key poll
inside it, `decrement_timers()`, `set_pressed` and the ROM load (spec/40_step_cycle.md R101 to R117, spec/60_exceptions.md
R257, R264). -/

namespace Sys2Proof.Machine

/-- Fetch: the word at PC, and the state with PC advanced by 2 before dispatch (R102, R103). -/
def fetch (s : State) : Except FatalCondition (Word × State) :=
  match s.readWord s.pc with
  | .error c => .error c
  | .ok w =>
    match add16c s.pc 2 with
    | .error c => .error c
    | .ok pc => .ok (w, { s with pc := pc })

/-- Decode and execute a fetched word: an instruction runs its rule, an unrecognised word is reported and is otherwise a
no-op (R104 to R106). -/
def executeWord (w : Word) (s : State) : Result :=
  match decodeWord w with
  | .ok i => exec i s
  | .error _ => .next (s.emit (.unknownOpcode w))

/-- `Step()`, the CPU step (R101); a fault of the fetch leaves PC as it was (R245). -/
def cpuStep (s : State) : Result :=
  match fetch s with
  | .error c => raise c s
  | .ok (w, s') => executeWord w s'

/-- A tick while waiting for a key: the lowest pressed code goes to `V[x]` and RUN returns to Running, or nothing changes
(R112, R113). -/
def pollKey (x : Reg) (s : State) : State :=
  match s.firstPressedKey with
  | some k => { s.setV x (k.setWidth 8) with run := .running }
  | none => s

/-- `advance()`, one tick (R110 to R115). -/
def advance (s : State) : Result :=
  match s.run with
  | .running => cpuStep s
  | .waitingForKey x => .next (pollKey x s)
  | .faulted _ => .next s

/-- A timer one lower, never below zero (R117). -/
def countDown (t : Byte) : Byte := if 0 < t.toNat then t - 1 else t

/-- `decrement_timers()`: both timers count down while Running; nothing changes while waiting or faulted (R115 to R117). -/
def decrementTimers (s : State) : State :=
  match s.run with
  | .running => { s with dt := countDown s.dt, st := countDown s.st }
  | .waitingForKey _ => s
  | .faulted _ => s

/-- `set_pressed(code, pressed)`: one key's level, nothing else, RUN included (R257), in the Faulted state too
(spec/95_test_vectors.md L5). -/
def setPressed (code : Nibble) (pressed : Bool) (s : State) : State :=
  { s with key := s.key.set code.toNat pressed code.isLt }

/-- One operation of the host (R263). -/
def perform (op : HostOp) (s : State) : Result :=
  match op with
  | .advance => advance s
  | .decrementTimers => .next (decrementTimers s)
  | .setPressed code pressed => .next (setPressed code pressed s)

/-- The ROM bytes from byte `k` on, copied to 0x200 + k, 0x200 + k + 1, … until the ceiling 0xFFF is passed (R264). -/
def loadFrom : Nat → List Byte → State → State
  | _, [], s => s
  | k, b :: rest, s =>
    if 0xFFF < 0x200 + k then s.fail (.romOverrun (0x200 + k))
    else loadFrom (k + 1) rest { s with mem := Memory.store s.mem (0x200 + k) b }

/-- `load(bytes)`: the host's ROM load, once after construction and before the first `advance()` (R264, R283). A run of a
program starts from `load rom State.reset`. -/
def load (rom : List Byte) (s : State) : State := loadFrom 0 rom s

/-! ### Placing one word where the next step fetches it -/

/-- The host's plan with `advance()` as its next operation. -/
def advanceNext : List HostOp → List HostOp
  | [] => []
  | .advance :: rest => .advance :: rest
  | op :: rest => .advance :: op :: rest

/-- PC where it points at two writable bytes, and otherwise the load address 0x200. -/
def fetchablePc (pc : Addr) : Addr := if 0x200 ≤ pc.toNat ∧ pc.toNat < 0xFFF then pc else 0x200

/-- The state with two bytes stored at PC, Running, and the host about to call `advance()`. -/
def placeWord (hi lo : Byte) (s : State) : State :=
  let pc := fetchablePc s.pc
  { s with
    pc := pc
    mem := Memory.store (Memory.store s.mem pc.toNat hi) (pc.toNat + 1) lo
    run := .running
    schedule := advanceNext s.schedule }

end Sys2Proof.Machine
end

