-- ==== Sys2Proof/Machine/Step.lean ====
section
/-! DEFINITION. One step of the block: the host's next operation (spec/60_exceptions.md R263, R267). -/

namespace Sys2Proof.Machine

/-- One step performs the next operation of the host's schedule, and `advance()` once the schedule is used up. The schedule is
open (R118, decision D20): a claim about every state holds for every schedule. See notes/assumptions/5.md. -/
def step (s : State) : Host.Outcome State Fault Refusal :=
  match s.schedule with
  | [] => advance s
  | op :: rest => perform op { s with schedule := rest }

/-- The state in which the next step fetches and runs the given table word: its two bytes stored at PC, the machine Running
and `advance()` the host's next operation. -/
def State.withFetchWord (s : State) (nbits w : Nat) : State :=
  match tableBytes nbits w with
  | hi :: lo :: _ => placeWord hi lo s
  | _ => s

end Sys2Proof.Machine
end

