-- ==== Sys2Proof/Safety.lean ====
section
/-! DEFINITION. What a safe run is, the invariant of the machine's state, and the parts of the state by which a claim says what
an operation leaves unchanged. -/

namespace Sys2Proof.Machine

/-- A state that is no failed end: RUN is not Faulted (spec/60_exceptions.md R241). -/
abbrev State.safe (s : State) : Prop := ∀ c, s.run ≠ .faulted c

/-- The info of a fatal condition is one its kind can record (R242; 90_conflicts.md C15). -/
def FatalCondition.possible : FatalCondition → Bool
  | .stackOverflow => true
  | .stackUnderflow => true
  | .invalidWrite addr => !decide (inProgramSpace addr.toNat)
  | .invalidGlyph digit => decide (0x0F < digit.toNat)
  | .romOverrun addr => addr == 0x1000
  | .keyIndexOutOfRange code => decide (0x0F < code.toNat)
  | .addressOverflow sum => sum == 0x10000 || sum == 0x10001

/-- RUN is Running, a wait, or a fatal condition with an info its kind can record. -/
def RunState.possible : RunState → Bool
  | .running => true
  | .waitingForKey _ => true
  | .faulted c => c.possible

/-- The invariant: SP is in its legal range (R26, R28), memory is in its canonical form and RUN is a state the machine can be
in (R39, R242). -/
abbrev State.inv (s : State) : Prop := s.sp.toNat ≤ 15 ∧ Memory.wf s.mem ∧ s.run.possible = true

/-- A part of the state that an operation writes or leaves. A byte of the address space is one part, whichever region holds
it; so is a pixel. -/
inductive Part where
  | reg (x : Reg)
  | index
  | pc
  | sp
  | stackEntry (k : Fin 16)
  | dt
  | st
  | fontByte (k : Fin 80)
  | byte (a : Addr)
  | pixel (x : Fin 64) (y : Fin 32)
  | key (k : Nibble)
  | run
  | diagnostics
  | randDraws
  | schedule
  deriving DecidableEq, Repr

/-- Two states agree on a part. -/
def State.sameAt (s t : State) : Part → Prop
  | .reg x => t.getV x = s.getV x
  | .index => t.i = s.i
  | .pc => t.pc = s.pc
  | .sp => t.sp = s.sp
  | .stackEntry k => t.stack[k.val] = s.stack[k.val]
  | .dt => t.dt = s.dt
  | .st => t.st = s.st
  | .fontByte k => t.font[k.val] = s.font[k.val]
  | .byte a => t.readByte a = s.readByte a
  | .pixel x y => t.fb.pixel x y = s.fb.pixel x y
  | .key k => t.isPressed k = s.isPressed k
  | .run => t.run = s.run
  | .diagnostics => t.diagnostics = s.diagnostics
  | .randDraws => t.randDraws = s.randDraws
  | .schedule => t.schedule = s.schedule

/-- From `s` to `t` every part outside `parts` is unchanged: the frame of an operation that writes `parts`. -/
def State.changesOnly (s t : State) (parts : Set Part) : Prop := ∀ p, p ∉ parts → s.sameAt t p

/-- A sprite of `rows` bytes at I, drawn at column `px` and row `py`, has a set bit for pixel (cx, cy): bit 7 - c of byte r
belongs to column `(px + c) mod 64` of row `(py + r) mod 32` (R130, R133, decision D10). -/
def State.spriteLights (s : State) (px py rows : Nat) (cx : Fin 64) (cy : Fin 32) : Prop :=
  ∃ r c, r < rows ∧ c < 8 ∧ cx.val = (px + c) % 64 ∧ cy.val = (py + r) % 32 ∧
    (s.readByte (s.i + BitVec.ofNat 16 r)).getLsbD (7 - c) = true

/-- The parts an instruction may write, read off the spec's register tables (R22, R30), access table (R52) and instruction rules;
RUN is among them where the instruction can raise a fatal condition or wait (R119, R243, notes/assumptions/13.md). That Fx55 and
Fx65 do not write I is notes/assumptions/20.md, and the pixels of a draw are those of notes/assumptions/11.md. Nothing else may
change. -/
def mayWrite (i : Instr) (s : State) : Set Part :=
  match i with
  | .cls => {p | ∃ x y, p = .pixel x y}
  | .ret => {.pc, .sp, .run}
  | .jp _ => {.pc}
  | .call _ => {.pc, .sp, .run} ∪ {p | ∃ k : Fin 16, k.val = s.sp.toNat + 1 ∧ p = .stackEntry k}
  | .seImm _ _ => {.pc, .run}
  | .sneImm _ _ => {.pc, .run}
  | .seReg _ _ => {.pc, .run}
  | .ldImm x _ => {.reg x}
  | .addImm x _ => {.reg x}
  | .ldReg x _ => {.reg x}
  | .orReg x _ => {.reg x}
  | .andReg x _ => {.reg x}
  | .xorReg x _ => {.reg x}
  | .addReg x _ => {.reg x, .reg 0xF}
  | .subReg x _ => {.reg x, .reg 0xF}
  | .shr x => {.reg x, .reg 0xF}
  | .subnReg x _ => {.reg x, .reg 0xF}
  | .shl x => {.reg x, .reg 0xF}
  | .sneReg _ _ => {.pc, .run}
  | .ldI _ => {.index}
  | .jpV0 _ => {.pc}
  | .rnd x _ => {.reg x, .randDraws}
  | .drw x y n => {.reg 0xF, .run} ∪
      {p | ∃ cx cy, s.spriteLights (s.getV x).toNat (s.getV y).toNat n.toNat cx cy ∧ p = .pixel cx cy}
  | .skp _ => {.pc, .run}
  | .sknp _ => {.pc, .run}
  | .ldVxDT x => {.reg x}
  | .ldVxK _ => {.run}
  | .ldDTVx _ => {.dt}
  | .ldSTVx _ => {.st}
  | .addI _ => {.index}
  | .ldF _ => {.index, .run}
  | .ldB _ => {.run} ∪ {p | ∃ a : Addr, s.i.toNat ≤ a.toNat ∧ a.toNat < s.i.toNat + 3 ∧ p = .byte a}
  | .ldMemVx x => {.run} ∪ {p | ∃ a : Addr, s.i.toNat ≤ a.toNat ∧ a.toNat ≤ s.i.toNat + x.toNat ∧ p = .byte a}
  | .ldVxMem x => {.run} ∪ {p | ∃ r : Reg, r.toNat ≤ x.toNat ∧ p = .reg r}

end Sys2Proof.Machine
end

