-- ==== Sys2Proof/Certificates/Slice0/Obligations.lean ====
section
/-! DEFINITION. The statements for the provers. `exec i s` runs an instruction's rule in a state whose PC is already past the
instruction (spec/40_step_cycle.md R103). -/

open Sys2Proof Sys2Proof.Machine

/-! ### Encoding -/

/-- The number is the word of an instruction: it decodes to it (spec/30_encoding.md R84). -/
def isWordOf (w : Nat) (i : Instr) : Prop := decodeWord (BitVec.ofNat 16 w) = .ok i

/-- Decoding the two bytes of any instruction, with anything after them, gives back the instruction and leaves the rest
(R80, R84). -/
def Obligations.DecodeInvertsEncode : Prop :=
  ∀ (i : Instr) (rest : List Byte), decode (encode i ++ rest) = .ok (i, rest)

/-- Every bit of a word is read but for the y of 8xy6 and 8xyE (R88): encoding what a word decodes to gives the word back; for
those two the word with any other y is the same instruction, and it gives the word with y zero, which is the model's choice
(notes/assumptions/2.md). -/
def Obligations.EncodeInvertsDecode : Prop :=
  ∀ (w : Word) (i : Instr), decodeWord w = .ok i →
    ((∀ x, i ≠ .shr x ∧ i ≠ .shl x) → encodeWord i = w) ∧
    (∀ x, i = .shr x ∨ i = .shl x →
      encodeWord i = w &&& 0xFF0F ∧ ∀ w' : Word, w' &&& 0xFF0F = w &&& 0xFF0F → decodeWord w' = .ok i)

/-- A word decodes exactly when it matches a row of the opcode map, and then to an instruction of that row (R84). -/
def Obligations.DecodeFollowsOpcodeMap : Prop :=
  opcodeTable.length = 34 ∧
  (∀ (w : Word) (i : Instr), decodeWord w = .ok i → i.row ∈ opcodeTable ∧ i.row.accepts w = true) ∧
  (∀ (w : Word) (r : OpcodeRow), r ∈ opcodeTable → r.accepts w = true → ∃ i, decodeWord w = .ok i ∧ i.row = r)

/-- Any two rows of the opcode map differ in a bit both masks cover (R85). -/
def Obligations.OpcodeRowsAreDisjoint : Prop :=
  opcodeTable.Pairwise (fun p q => p.mask &&& q.mask &&& (p.pattern ^^^ q.pattern) ≠ 0)

/-- The unrecognised words are those R86 lists, by leading nibble. -/
def Obligations.UnrecognisedWordsAreTheListed : Prop :=
  ∀ w : Word, decodeWord w = .error (.unknownOpcode w) ↔
    (w.toNat / 0x1000 = 0x0 ∧ w.toNat ≠ 0x00E0 ∧ w.toNat ≠ 0x00EE) ∨
    (w.toNat / 0x1000 = 0x5 ∧ w.toNat % 0x10 ≠ 0) ∨
    (w.toNat / 0x1000 = 0x8 ∧ w.toNat % 0x10 ∈ [0x8, 0x9, 0xA, 0xB, 0xC, 0xD, 0xF]) ∨
    (w.toNat / 0x1000 = 0x9 ∧ w.toNat % 0x10 ≠ 0) ∨
    (w.toNat / 0x1000 = 0xE ∧ w.toNat % 0x100 ∉ [0x9E, 0xA1]) ∨
    (w.toNat / 0x1000 = 0xF ∧ w.toNat % 0x100 ∉ [0x07, 0x0A, 0x15, 0x18, 0x1E, 0x29, 0x33, 0x55, 0x65])

/-- Words the spec writes out (its examples and programs, spec/95_test_vectors.md) decode to the instructions they stand for. -/
def Obligations.SampleWordsDecode : Prop :=
  isWordOf 0x00E0 .cls ∧ isWordOf 0x00EE .ret ∧ isWordOf 0x2300 (.call 0x300) ∧ isWordOf 0x3210 (.seImm 0x2 0x10) ∧
  isWordOf 0x6A42 (.ldImm 0xA 0x42) ∧ isWordOf 0x8014 (.addReg 0x0 0x1) ∧ isWordOf 0xD115 (.drw 0x1 0x1 0x5) ∧
  isWordOf 0xE1A1 (.sknp 0x1) ∧ isWordOf 0xF30A (.ldVxK 0x3) ∧ isWordOf 0xF265 (.ldVxMem 0x2)

/-! ### The step and the Machine -/

/-- A tick that finds an instruction at PC runs it with PC advanced by 2, whether the host's schedule is used up or names
`advance()` next (R101 to R105). The schedule is the model's form of the open host schedule, notes/assumptions/5.md. -/
def Obligations.StepRunsDecodedInstruction : Prop :=
  ∀ (s : State) (i : Instr), s.run = .running → s.pc.toNat ≤ 0xFFFD →
    decode [s.readByte s.pc, s.readByte (s.pc + 1)] = .ok (i, []) →
    (s.schedule = [] → step s = exec i { s with pc := s.pc + 2 }) ∧
    (∀ rest, s.schedule = .advance :: rest → step s = exec i { s with pc := s.pc + 2, schedule := rest })

/-- A step performs the host's next operation and takes it off the schedule; with none left it is `advance()`
(R263, R118; the schedule is the model's form, notes/assumptions/5.md). -/
def Obligations.StepPerformsHostOperations : Prop :=
  ∀ (s : State) (rest : List HostOp),
    (s.schedule = [] → step s = advance s) ∧
    (s.schedule = .advance :: rest → step s = advance { s with schedule := rest }) ∧
    (s.schedule = .decrementTimers :: rest → step s = .next { decrementTimers s with schedule := rest }) ∧
    (∀ k b, s.schedule = .setPressed k b :: rest → step s = .next { setPressed k b s with schedule := rest })

/-- An unrecognised word is reported and is otherwise a no-op: PC is past it and nothing else changes (R106). -/
def Obligations.UnrecognisedWordIsNoOp : Prop :=
  ∀ s : State, s.run = .running → s.pc.toNat ≤ 0xFFFD →
    wordWellFormed (wordOfBytes (s.readByte s.pc) (s.readByte (s.pc + 1))) = false →
    ∃ t, advance s = .next t ∧ t.pc = s.pc + 2 ∧
      t.diagnostics = s.diagnostics ++ [.unknownOpcode (wordOfBytes (s.readByte s.pc) (s.readByte (s.pc + 1)))] ∧
      s.changesOnly t {.pc, .diagnostics}

/-- A fetch at the last two addresses faults with PC unchanged (R102, R103, R245; decision D5 of the spec). -/
def Obligations.FetchAtTheTopFaults : Prop :=
  ∀ s : State, s.run = .running → 0xFFFE ≤ s.pc.toNat →
    advance s = .next { s with run := .faulted (.addressOverflow 0x10000) }

/-- A tick of the key wait: with no key pressed nothing changes; otherwise the lowest pressed code goes to Vx and RUN returns to
Running, and no instruction runs (R112, R113). -/
def Obligations.WaitingTickPollsTheKeys : Prop :=
  ∀ (s : State) (x : Reg), s.run = .waitingForKey x →
    ((∀ k, s.isPressed k = false) → advance s = .next s) ∧
    (∀ k : Nibble, s.isPressed k = true → (∀ j : Nibble, j.toNat < k.toNat → s.isPressed j = false) →
      ∃ t, advance s = .next t ∧ (t.getV x).toNat = k.toNat ∧ t.run = .running ∧ s.changesOnly t {.reg x, .run})

/-- Fx0A then a held key: the first tick only enters the wait with PC past the instruction, the second takes the lowest pressed
code and leaves PC (R111, R113, R114, R224). -/
def Obligations.KeyWaitResolvesOnALaterTick : Prop :=
  ∀ (s : State) (x : Reg) (k : Nibble), s.run = .running → s.pc.toNat ≤ 0xFFFD →
    (wordOfBytes (s.readByte s.pc) (s.readByte (s.pc + 1))).toNat = 0xF00A + 0x100 * x.toNat →
    s.isPressed k = true → (∀ j : Nibble, j.toNat < k.toNat → s.isPressed j = false) →
    ∃ t u, advance s = .next t ∧ t.run = .waitingForKey x ∧ t.pc = s.pc + 2 ∧ s.changesOnly t {.pc, .run} ∧
      advance t = .next u ∧ u.run = .running ∧ (u.getV x).toNat = k.toNat ∧ t.changesOnly u {.reg x, .run}

/-- The only exit from the wait is a poll that finds a key, and nothing but a tick ends it (R119). -/
def Obligations.OnlyAPressedKeyEndsTheWait : Prop :=
  ∀ (s t : State) (x : Reg), s.run = .waitingForKey x → step s = .next t →
    t.run = .waitingForKey x ∨
    (t.run = .running ∧ (s.schedule = [] ∨ s.schedule.head? = some .advance) ∧
      ∃ k, s.isPressed k = true ∧ (t.getV x).toNat = k.toNat)

/-- Faulted is terminal: ticks and timer decrements change nothing, and a step can only set a key's level
(R115, R119, R241, R244; the terminal state is decision D12 of the spec, the schedule notes/assumptions/5.md). -/
def Obligations.FaultedIsTerminal : Prop :=
  ∀ (s : State) (c : FatalCondition), s.run = .faulted c →
    advance s = .next s ∧ decrementTimers s = s ∧
    ∃ t, step s = .next t ∧ t.run = .faulted c ∧ s.changesOnly t ({.schedule} ∪ {p | ∃ k, p = .key k})

/-- `decrement_timers()`: while Running both timers go one down, never below zero, and nothing else changes; while waiting or
faulted nothing does (R116, R117; the faulted case is R115, decision D12 of the spec, notes/assumptions/13.md). -/
def Obligations.TimersCountDownOnlyWhileRunning : Prop :=
  ∀ s : State,
    (s.run = .running → (decrementTimers s).dt.toNat = s.dt.toNat - 1 ∧ (decrementTimers s).st.toNat = s.st.toNat - 1 ∧
      s.changesOnly (decrementTimers s) {.dt, .st}) ∧
    (∀ x, s.run = .waitingForKey x → decrementTimers s = s) ∧
    (∀ c, s.run = .faulted c → decrementTimers s = s)

/-- A timer holding v is at v - n after n decrements while Running, so at 0 after v of them and from then on (R293). -/
def Obligations.TimerReachesZeroAfterItsValue : Prop :=
  ∀ (s : State) (n : Nat), s.run = .running →
    (decrementTimers^[n] s).dt.toNat = s.dt.toNat - n ∧ (decrementTimers^[n] s).st.toNat = s.st.toNat - n

/-- `set_pressed` sets one key's level and changes nothing else, RUN included (R257). -/
def Obligations.SetPressedSetsOneKey : Prop :=
  ∀ (s : State) (k : Nibble) (b : Bool), (setPressed k b s).isPressed k = b ∧ s.changesOnly (setPressed k b s) {.key k}

/-- The ROM load copies the bytes from 0x200 in file order and changes nothing else; a ROM past the ceiling leaves its first
3584 bytes and `Faulted(RomOverrun, 0x1000)` (R264, R72; the overrun's state is decision D24 of the spec). -/
def Obligations.RomLoadCopiesFromLoadAddress : Prop :=
  ∀ (rom : List Byte) (s : State),
    (∀ (k : Nat) (h : k < rom.length), k < 3584 → (load rom s).readByte (BitVec.ofNat 16 (0x200 + k)) = rom[k]) ∧
    (rom.length ≤ 3584 → (load rom s).run = s.run) ∧
    (3584 < rom.length → (load rom s).run = .faulted (.romOverrun 0x1000)) ∧
    s.changesOnly (load rom s)
      ({.run} ∪ {p | ∃ a : Addr, 0x200 ≤ a.toNat ∧ a.toNat < 0x200 + rom.length ∧ a.toNat ≤ 0xFFF ∧ p = .byte a})

/-- The first tick after loading a ROM fetches its first word from 0x200 (R281). -/
def Obligations.FirstFetchIsTheRomsFirstWord : Prop :=
  ∀ (hi lo : Byte) (rest : List Byte), rest.length ≤ 3582 →
    fetch (load (hi :: lo :: rest) State.reset) =
      .ok (wordOfBytes hi lo, { load (hi :: lo :: rest) State.reset with pc := 0x202 })

/-- Reset (R41): PC and RUN are the source's; the zeros, the clear display and the released keys are decisions D1 to D4 of the
spec (notes/assumptions/6.md, 7.md) and every 16-bit address outside the font reads zero. -/
def Obligations.ResetState : Prop :=
  State.reset.pc = 0x200 ∧ State.reset.run = .running ∧
  (∀ x, State.reset.getV x = 0) ∧ State.reset.i = 0 ∧ State.reset.sp = 0 ∧
  (∀ k : Fin 16, State.reset.stack[k.val] = 0) ∧ State.reset.dt = 0 ∧ State.reset.st = 0 ∧
  (∀ a : Addr, 80 ≤ a.toNat → State.reset.readByte a = 0) ∧
  (∀ x y, State.reset.fb.pixel x y = false) ∧ (∀ k, State.reset.isPressed k = false)

/-! ### Memory -/

/-- A byte read is total: the glyph byte, the stored byte, or zero (R53). -/
def Obligations.ReadByteIsTotalByRegion : Prop :=
  ∀ (s : State) (a : Addr),
    (∀ h : a.toNat < 80, s.readByte a = s.font[a.toNat]) ∧
    (0x50 ≤ a.toNat → a.toNat < 0x200 → s.readByte a = 0) ∧
    (0x200 ≤ a.toNat → a.toNat ≤ 0xFFF → s.readByte a = Memory.lookup s.mem a.toNat) ∧
    (0x1000 ≤ a.toNat → s.readByte a = 0)

/-- A byte write succeeds only in program space, where that byte and no other then reads as written; anywhere else it is
`InvalidWrite` with the address (R55). -/
def Obligations.WriteByteOnlyInProgramSpace : Prop :=
  ∀ (s : State) (a : Addr) (b : Byte),
    (0x200 ≤ a.toNat → a.toNat ≤ 0xFFF → ∃ m, writeByte s.mem a b = .ok m ∧
      ∀ a' : Addr, State.readByte { s with mem := m } a' = if a' = a then b else s.readByte a') ∧
    (a.toNat < 0x200 ∨ 0xFFF < a.toNat → writeByte s.mem a b = .error (.invalidWrite a))

/-- A word stored by Fx55 is what a later fetch at its address takes (R69). -/
def Obligations.StoredBytesAreFetched : Prop :=
  ∀ (s : State) (x : Reg), 1 ≤ x.toNat → 0x200 ≤ s.i.toNat → s.i.toNat + x.toNat ≤ 0xFFF →
    ∃ t, exec (.ldMemVx x) s = .next t ∧
      fetch { t with pc := s.i } = .ok (wordOfBytes (s.getV 0x0) (s.getV 0x1), { t with pc := s.i + 2 })

/-! ### Display -/

/-- 00E0 turns every pixel off and changes nothing else (R131, R132). -/
def Obligations.ClsClearsEveryPixel : Prop :=
  isWordOf 0x00E0 .cls ∧
  ∀ s : State, ∃ t, exec .cls s = .next t ∧ (∀ x y, t.fb.pixel x y = false) ∧ s.changesOnly t {p | ∃ x y, p = .pixel x y}

/-- Dxyn where no row's address overflows: each pixel is toggled exactly when the sprite has a set bit for it, VF is 1 exactly
when one of those was on, and nothing else changes (R130, R133). Which pixel a bit belongs to is decision D10 of the spec. -/
def Obligations.DrawTogglesTheSpritesPixels : Prop :=
  ∀ (s : State) (x y : Reg) (n : Nibble),
    isWordOf (0xD000 + 0x100 * x.toNat + 0x10 * y.toNat + n.toNat) (.drw x y n) ∧
    (s.i.toNat + n.toNat ≤ 0x10000 →
      ∃ t, exec (.drw x y n) s = .next t ∧
        (∀ cx cy, t.fb.pixel cx cy = true ↔
          Xor (s.fb.pixel cx cy = true) (s.spriteLights (s.getV x).toNat (s.getV y).toNat n.toNat cx cy)) ∧
        ((∃ cx cy, s.spriteLights (s.getV x).toNat (s.getV y).toNat n.toNat cx cy ∧ s.fb.pixel cx cy = true) →
          t.getV 0xF = 1) ∧
        ((¬ ∃ cx cy, s.spriteLights (s.getV x).toNat (s.getV y).toNat n.toNat cx cy ∧ s.fb.pixel cx cy = true) →
          t.getV 0xF = 0) ∧
        s.changesOnly t ({.reg 0xF} ∪ {p | ∃ cx cy, p = .pixel cx cy}))

/-- Dxyn whose row k is the first past 0xFFFF: the k rows before it are drawn, the draw faults, and VF is not written
(R133; decisions D5, D10 and D22 of the spec). -/
def Obligations.DrawPastTheTopFaultsAtThatRow : Prop :=
  ∀ (s : State) (x y : Reg) (n : Nibble) (k : Nat), k < n.toNat → s.i.toNat + k = 0x10000 →
    ∃ t, exec (.drw x y n) s = .next t ∧ t.run = .faulted (.addressOverflow 0x10000) ∧
      (∀ cx cy, t.fb.pixel cx cy = true ↔
        Xor (s.fb.pixel cx cy = true) (s.spriteLights (s.getV x).toNat (s.getV y).toNat k cx cy)) ∧
      s.changesOnly t ({.run} ∪ {p | ∃ cx cy, p = .pixel cx cy})

/-- Drawing is its own inverse: `xor_pixel` twice gives the framebuffer back and reports the opposite the second time; the same
draw twice gives the framebuffer back, and the second draw's VF mirrors what the first one turned on: it is 1 exactly when some
pixel of the sprite was off before both (R130, R133, and the source's sentence in R134). The two VF clauses are the model's
reading, notes/assumptions/10.md: R134's consequence says 1 exactly when the sprite has a set bit, and on a framebuffer where all
the sprite's pixels are on this statement says 0 there, against that consequence. As in R134, x and y are not F. -/
def Obligations.DrawTwiceRestoresTheFramebuffer : Prop :=
  (∀ (fb : Framebuffer) (px py : Nat),
    xorPixel (xorPixel fb px py).1 px py = (fb, !(xorPixel fb px py).2)) ∧
  ∀ (s : State) (x y : Reg) (n : Nibble), x ≠ 0xF → y ≠ 0xF → s.i.toNat + n.toNat ≤ 0x10000 →
    ∃ t u, exec (.drw x y n) s = .next t ∧ exec (.drw x y n) t = .next u ∧ u.fb = s.fb ∧
      ((∃ cx cy, s.spriteLights (s.getV x).toNat (s.getV y).toNat n.toNat cx cy ∧ s.fb.pixel cx cy = false) →
        u.getV 0xF = 1) ∧
      ((¬ ∃ cx cy, s.spriteLights (s.getV x).toNat (s.getV y).toNat n.toNat cx cy ∧ s.fb.pixel cx cy = false) →
        u.getV 0xF = 0)

/-- The host's view: element `y * 64 + x` is the on colour exactly where pixel (x, y) is on (R35). -/
def Obligations.DisplayBufferIsRowMajor : Prop :=
  ∀ (Colour : Type) (colourOn colourOff : Colour) (s : State) (x : Fin 64) (y : Fin 32) (h : y.val * 64 + x.val < 2048),
    (displayBuffer colourOn colourOff s)[y.val * 64 + x.val] = if s.fb.pixel x y then colourOn else colourOff

/-! ### Control transfer -/

/-- 00EE: with SP = 0 it is `StackUnderflow` and nothing else changes; with SP from 1 to 15 PC becomes STACK[SP] and SP goes one
down (R151). That the underflow is a next state which keeps all but RUN is decisions D12 and D22 of the spec,
notes/assumptions/13.md. -/
def Obligations.RetPopsTheStack : Prop :=
  isWordOf 0x00EE .ret ∧
  ∀ s : State,
    (s.sp = 0 → exec .ret s = .next { s with run := .faulted .stackUnderflow }) ∧
    (∀ h : s.sp.toNat < 16, s.sp ≠ 0 →
      ∃ t, exec .ret s = .next t ∧ t.pc = s.stack[s.sp.toNat] ∧ t.sp.toNat + 1 = s.sp.toNat ∧ s.changesOnly t {.pc, .sp})

/-- 2nnn: with SP = 15 it is `StackOverflow` and nothing else changes; with SP below 15 SP goes one up, the entry there takes the
return address, and PC becomes nnn (R153). That the overflow is a next state which keeps all but RUN is decisions D12 and D22 of
the spec, notes/assumptions/13.md. -/
def Obligations.CallPushesTheReturnAddress : Prop :=
  ∀ (s : State) (nnn : Imm12),
    isWordOf (0x2000 + nnn.toNat) (.call nnn) ∧
    (s.sp = 15 → exec (.call nnn) s = .next { s with run := .faulted .stackOverflow }) ∧
    (∀ h : s.sp.toNat < 15,
      ∃ t, exec (.call nnn) s = .next t ∧ t.sp.toNat = s.sp.toNat + 1 ∧ t.stack[s.sp.toNat + 1] = s.pc ∧
        t.pc.toNat = nnn.toNat ∧ s.changesOnly t {.sp, .pc, .stackEntry ⟨s.sp.toNat + 1, by omega⟩})

/-- Above 15, where no run from reset comes and STACK has no entry, RET and CALL stop with the model's own fault (R26, R28; the
stop is the model's choice, notes/assumptions/9.md). -/
def Obligations.StackPointerAboveFifteenStops : Prop :=
  ∀ (s : State) (nnn : Imm12), 15 < s.sp.toNat →
    exec .ret s = .fault (.stackIndexOutOfRange s.sp) ∧ exec (.call nnn) s = .fault (.stackIndexOutOfRange s.sp)

/-- A CALL and the RET that matches it: execution resumes after the CALL with SP as before, wherever the subroutine ran
(R26, R151, R153). -/
def Obligations.ReturnResumesAfterTheCall : Prop :=
  ∀ (s : State) (nnn : Imm12) (a : Addr), s.sp.toNat < 15 →
    ∃ t u, exec (.call nnn) s = .next t ∧ exec .ret { t with pc := a } = .next u ∧ u.pc = s.pc ∧ u.sp = s.sp

/-- 1nnn sets PC to nnn and changes nothing else (R152). -/
def Obligations.JumpSetsPc : Prop :=
  ∀ (s : State) (nnn : Imm12),
    isWordOf (0x1000 + nnn.toNat) (.jp nnn) ∧
    ∃ t, exec (.jp nnn) s = .next t ∧ t.pc.toNat = nnn.toNat ∧ s.changesOnly t {.pc}

/-- Bnnn sets PC to nnn + V0, unmasked, and changes nothing else (R158; decision D23 of the spec). -/
def Obligations.JumpWithOffsetAddsV0 : Prop :=
  ∀ (s : State) (nnn : Imm12),
    isWordOf (0xB000 + nnn.toNat) (.jpV0 nnn) ∧
    ∃ t, exec (.jpV0 nnn) s = .next t ∧ t.pc.toNat = nnn.toNat + (s.getV 0x0).toNat ∧ s.changesOnly t {.pc}

/-- What a skip does: not taken it changes nothing, taken it advances PC by 2 more, and past the top of the address space it is
`AddressOverflow` (R150; the overflow is decision D5 of the spec). -/
def skipsWhen (i : Instr) (s : State) (taken : Prop) : Prop :=
  (¬ taken → exec i s = .next s) ∧
  (taken → s.pc.toNat ≤ 0xFFFD → ∃ t, exec i s = .next t ∧ t.pc.toNat = s.pc.toNat + 2 ∧ s.changesOnly t {.pc}) ∧
  (taken → 0xFFFD < s.pc.toNat → exec i s = .next { s with run := .faulted (.addressOverflow (s.pc.toNat + 2)) })

/-- 3xkk, 4xkk, 5xy0 and 9xy0 skip exactly on their comparison (R154 to R157; overflow by decision D5 of the spec). -/
def Obligations.ComparisonSkips : Prop :=
  ∀ (s : State) (x y : Reg) (kk : Byte),
    isWordOf (0x3000 + 0x100 * x.toNat + kk.toNat) (.seImm x kk) ∧ skipsWhen (.seImm x kk) s (s.getV x = kk) ∧
    isWordOf (0x4000 + 0x100 * x.toNat + kk.toNat) (.sneImm x kk) ∧ skipsWhen (.sneImm x kk) s (s.getV x ≠ kk) ∧
    isWordOf (0x5000 + 0x100 * x.toNat + 0x10 * y.toNat) (.seReg x y) ∧ skipsWhen (.seReg x y) s (s.getV x = s.getV y) ∧
    isWordOf (0x9000 + 0x100 * x.toNat + 0x10 * y.toNat) (.sneReg x y) ∧ skipsWhen (.sneReg x y) s (s.getV x ≠ s.getV y)

/-! ### Registers and arithmetic -/

/-- The instruction goes on with Vx at the given value, every other register and every other part unchanged. -/
def setsRegister (i : Instr) (s : State) (x : Reg) (value : Byte) : Prop :=
  ∃ t, exec i s = .next t ∧ t.getV x = value ∧ s.changesOnly t {.reg x}

/-- 6xkk, 7xkk and 8xy0: load, add with wraparound and no flag, copy (R172 to R174). -/
def Obligations.LoadAddAndCopyRegister : Prop :=
  ∀ (s : State) (x y : Reg) (kk : Byte),
    isWordOf (0x6000 + 0x100 * x.toNat + kk.toNat) (.ldImm x kk) ∧ setsRegister (.ldImm x kk) s x kk ∧
    isWordOf (0x7000 + 0x100 * x.toNat + kk.toNat) (.addImm x kk) ∧
    setsRegister (.addImm x kk) s x (BitVec.ofNat 8 (((s.getV x).toNat + kk.toNat) % 256)) ∧
    isWordOf (0x8000 + 0x100 * x.toNat + 0x10 * y.toNat) (.ldReg x y) ∧ setsRegister (.ldReg x y) s x (s.getV y)

/-- 8xy1, 8xy2 and 8xy3: bitwise OR, AND, XOR, bit by bit, and no flag (R175 to R177). -/
def Obligations.BitwiseRegisterOperations : Prop :=
  ∀ (s : State) (x y : Reg),
    (isWordOf (0x8001 + 0x100 * x.toNat + 0x10 * y.toNat) (.orReg x y) ∧
      ∃ t, exec (.orReg x y) s = .next t ∧ s.changesOnly t {.reg x} ∧
        ∀ b, (t.getV x).getLsbD b = ((s.getV x).getLsbD b || (s.getV y).getLsbD b)) ∧
    (isWordOf (0x8002 + 0x100 * x.toNat + 0x10 * y.toNat) (.andReg x y) ∧
      ∃ t, exec (.andReg x y) s = .next t ∧ s.changesOnly t {.reg x} ∧
        ∀ b, (t.getV x).getLsbD b = ((s.getV x).getLsbD b && (s.getV y).getLsbD b)) ∧
    (isWordOf (0x8003 + 0x100 * x.toNat + 0x10 * y.toNat) (.xorReg x y) ∧
      ∃ t, exec (.xorReg x y) s = .next t ∧ s.changesOnly t {.reg x} ∧
        ∀ b, (t.getV x).getLsbD b = ((s.getV x).getLsbD b ^^ (s.getV y).getLsbD b))

/-- The instruction goes on with Vx at `result` unless x is F, VF at `flag` in any case, and nothing else changed. -/
def setsResultAndFlag (i : Instr) (s : State) (x : Reg) (result : Nat) (flag : Prop) : Prop :=
  ∃ t, exec i s = .next t ∧ (x ≠ 0xF → (t.getV x).toNat = result) ∧
    (flag → t.getV 0xF = 1) ∧ (¬ flag → t.getV 0xF = 0) ∧ s.changesOnly t {.reg x, .reg 0xF}

/-- 8xy4: the sum modulo 256, and VF = 1 exactly when the true sum is above 255 (R178). With x = F VF ends as the carry: R171,
decision D7 of the spec, notes/assumptions/8.md. -/
def Obligations.AddSetsSumAndCarry : Prop :=
  ∀ (s : State) (x y : Reg),
    isWordOf (0x8004 + 0x100 * x.toNat + 0x10 * y.toNat) (.addReg x y) ∧
    setsResultAndFlag (.addReg x y) s x (((s.getV x).toNat + (s.getV y).toNat) % 256)
      (255 < (s.getV x).toNat + (s.getV y).toNat)

/-- 8xy5 and 8xy7: the difference modulo 256, and VF = 1 exactly when the minuend was strictly greater (R179, R181). With x = F
VF ends as the flag: R171, decision D7 of the spec, notes/assumptions/8.md. -/
def Obligations.SubtractSetsDifferenceAndFlag : Prop :=
  ∀ (s : State) (x y : Reg),
    isWordOf (0x8005 + 0x100 * x.toNat + 0x10 * y.toNat) (.subReg x y) ∧
    setsResultAndFlag (.subReg x y) s x (((s.getV x).toNat + 256 - (s.getV y).toNat) % 256)
      ((s.getV y).toNat < (s.getV x).toNat) ∧
    isWordOf (0x8007 + 0x100 * x.toNat + 0x10 * y.toNat) (.subnReg x y) ∧
    setsResultAndFlag (.subnReg x y) s x (((s.getV y).toNat + 256 - (s.getV x).toNat) % 256)
      ((s.getV x).toNat < (s.getV y).toNat)

/-- 8xy6 and 8xyE, whatever the word's y: Vx shifted by one and VF the bit shifted out (R180, R182). With x = F the shift works
on the flag just written: R171, decision D7 of the spec, notes/assumptions/8.md. -/
def Obligations.ShiftsMoveTheEndBitToVf : Prop :=
  ∀ (s : State) (x y : Reg),
    isWordOf (0x8006 + 0x100 * x.toNat + 0x10 * y.toNat) (.shr x) ∧
    (∃ t, exec (.shr x) s = .next t ∧ s.changesOnly t {.reg x, .reg 0xF} ∧
      (x ≠ 0xF → (t.getV x).toNat = (s.getV x).toNat / 2 ∧ (t.getV 0xF).toNat = (s.getV x).toNat % 2) ∧
      (x = 0xF → t.getV 0xF = 0)) ∧
    isWordOf (0x800E + 0x100 * x.toNat + 0x10 * y.toNat) (.shl x) ∧
    (∃ t, exec (.shl x) s = .next t ∧ s.changesOnly t {.reg x, .reg 0xF} ∧
      (x ≠ 0xF → (t.getV x).toNat = (s.getV x).toNat * 2 % 256 ∧ (t.getV 0xF).toNat = (s.getV x).toNat / 128) ∧
      (x = 0xF → (t.getV 0xF).toNat = 2 * ((s.getV 0xF).toNat / 128)))

/-- Cxkk: Vx becomes the next random byte ANDed with kk, whatever that byte is, and the draw is used up (R183). The draw is a
free value and its counter the model's own, notes/assumptions/1.md. -/
def Obligations.RandomByteIsMasked : Prop :=
  ∀ (s : State) (x : Reg) (kk : Byte),
    isWordOf (0xC000 + 0x100 * x.toNat + kk.toNat) (.rnd x kk) ∧
    ∃ t, exec (.rnd x kk) s = .next t ∧ t.getV x = Config.randByte s.randDraws &&& kk ∧
      t.randDraws = s.randDraws + 1 ∧ s.changesOnly t {.reg x, .randDraws}

/-! ### Index register and memory instructions -/

/-- Annn sets I to nnn; Fx1E adds Vx to I with 16-bit wraparound and no flag (R200, R201). -/
def Obligations.IndexLoadAndAdd : Prop :=
  ∀ (s : State) (x : Reg) (nnn : Imm12),
    isWordOf (0xA000 + nnn.toNat) (.ldI nnn) ∧
    (∃ t, exec (.ldI nnn) s = .next t ∧ t.i.toNat = nnn.toNat ∧ s.changesOnly t {.index}) ∧
    isWordOf (0xF01E + 0x100 * x.toNat) (.addI x) ∧
    (∃ t, exec (.addI x) s = .next t ∧ t.i.toNat = (s.i.toNat + (s.getV x).toNat) % 65536 ∧ s.changesOnly t {.index})

/-- Fx29 points I at the glyph of Vx, or is `InvalidGlyph` above 0xF with nothing else changed (R58, R202). That the condition is
a next state which keeps all but RUN is decisions D12 and D22 of the spec, notes/assumptions/13.md. -/
def Obligations.IndexPointsAtTheGlyph : Prop :=
  ∀ (s : State) (x : Reg),
    isWordOf (0xF029 + 0x100 * x.toNat) (.ldF x) ∧
    ((s.getV x).toNat ≤ 0xF →
      ∃ t, exec (.ldF x) s = .next t ∧ t.i.toNat = (s.getV x).toNat * 5 ∧ s.changesOnly t {.index}) ∧
    (0xF < (s.getV x).toNat → exec (.ldF x) s = .next { s with run := .faulted (.invalidGlyph (s.getV x)) })

/-- Fx33 with I, I+1 and I+2 in program space: hundreds, tens and ones of Vx at those addresses, I unchanged and nothing else
written (R203, R206). -/
def Obligations.BcdStoresThreeDigits : Prop :=
  ∀ (s : State) (x : Reg),
    isWordOf (0xF033 + 0x100 * x.toNat) (.ldB x) ∧
    (0x200 ≤ s.i.toNat → s.i.toNat + 2 ≤ 0xFFF →
      ∃ t, exec (.ldB x) s = .next t ∧
        (t.readByte s.i).toNat = (s.getV x).toNat / 100 ∧
        (t.readByte (s.i + 1)).toNat = (s.getV x).toNat / 10 % 10 ∧
        (t.readByte (s.i + 2)).toNat = (s.getV x).toNat % 10 ∧
        s.changesOnly t {.byte s.i, .byte (s.i + 1), .byte (s.i + 2)})

/-- Fx55 with I to I+x in program space: V0 to Vx at those addresses, I unchanged and nothing else written (R204; that I is
unchanged is decision D21 of the spec, notes/assumptions/20.md). -/
def Obligations.StoreRegistersAtIndex : Prop :=
  ∀ (s : State) (x : Reg),
    isWordOf (0xF055 + 0x100 * x.toNat) (.ldMemVx x) ∧
    (0x200 ≤ s.i.toNat → s.i.toNat + x.toNat ≤ 0xFFF →
      ∃ t, exec (.ldMemVx x) s = .next t ∧
        (∀ k : Reg, k.toNat ≤ x.toNat → t.readByte (s.i + BitVec.ofNat 16 k.toNat) = s.getV k) ∧
        s.changesOnly t {p | ∃ k : Reg, k.toNat ≤ x.toNat ∧ p = .byte (s.i + BitVec.ofNat 16 k.toNat)})

/-- Fx33 and Fx55 whose byte j is the first outside program space: the bytes before it stay written and the store faults with
that address (R203, R204, R243; decision D22 of the spec, notes/assumptions/13.md, and for I after Fx55 decision D21,
notes/assumptions/20.md). -/
def Obligations.StoreFaultsAtTheFirstBadAddress : Prop :=
  ∀ (s : State) (x : Reg) (j : Nat), s.i.toNat + j ≤ 0xFFFF →
    (∀ l < j, inProgramSpace (s.i.toNat + l)) → ¬ inProgramSpace (s.i.toNat + j) →
    (j ≤ 2 → ∃ t, exec (.ldB x) s = .next t ∧ t.run = .faulted (.invalidWrite (s.i + BitVec.ofNat 16 j)) ∧
      (0 < j → (t.readByte s.i).toNat = (s.getV x).toNat / 100) ∧
      (1 < j → (t.readByte (s.i + 1)).toNat = (s.getV x).toNat / 10 % 10) ∧
      s.changesOnly t ({.run} ∪ {p | ∃ l < j, p = .byte (s.i + BitVec.ofNat 16 l)})) ∧
    (j ≤ x.toNat → ∃ t, exec (.ldMemVx x) s = .next t ∧ t.run = .faulted (.invalidWrite (s.i + BitVec.ofNat 16 j)) ∧
      (∀ k : Reg, k.toNat < j → t.readByte (s.i + BitVec.ofNat 16 k.toNat) = s.getV k) ∧
      s.changesOnly t ({.run} ∪ {p | ∃ l < j, p = .byte (s.i + BitVec.ofNat 16 l)}))

/-- Fx65: V0 to Vx take the bytes at I to I+x, I unchanged and nothing else written; where byte j is the first past 0xFFFF the
registers before Vj are loaded and the load faults (R205; the overflow and the state it leaves are decisions D5 and D22 of the
spec, notes/assumptions/12.md and 13.md, and that I is unchanged is decision D21, notes/assumptions/20.md). -/
def Obligations.LoadRegistersFromIndex : Prop :=
  ∀ (s : State) (x : Reg),
    isWordOf (0xF065 + 0x100 * x.toNat) (.ldVxMem x) ∧
    (s.i.toNat + x.toNat ≤ 0xFFFF →
      ∃ t, exec (.ldVxMem x) s = .next t ∧
        (∀ k : Reg, k.toNat ≤ x.toNat → t.getV k = s.readByte (s.i + BitVec.ofNat 16 k.toNat)) ∧
        s.changesOnly t {p | ∃ k : Reg, k.toNat ≤ x.toNat ∧ p = .reg k}) ∧
    (∀ j ≤ x.toNat, s.i.toNat + j = 0x10000 →
      ∃ t, exec (.ldVxMem x) s = .next t ∧ t.run = .faulted (.addressOverflow 0x10000) ∧
        (∀ k : Reg, k.toNat < j → t.getV k = s.readByte (s.i + BitVec.ofNat 16 k.toNat)) ∧
        s.changesOnly t ({.run} ∪ {p | ∃ k : Reg, k.toNat < j ∧ p = .reg k}))

/-! ### Keypad and timer instructions -/

/-- Ex9E and ExA1 skip on the level of key Vx; a key code above 0xF is `KeyIndexOutOfRange` before any skip, with nothing else
changed (R221, R222; the fault is decision D8 of the spec, the skip's overflow D5). -/
def Obligations.KeySkips : Prop :=
  ∀ (s : State) (x : Reg),
    isWordOf (0xE09E + 0x100 * x.toNat) (.skp x) ∧ isWordOf (0xE0A1 + 0x100 * x.toNat) (.sknp x) ∧
    (∀ k : Nibble, (s.getV x).toNat = k.toNat →
      skipsWhen (.skp x) s (s.isPressed k = true) ∧ skipsWhen (.sknp x) s (s.isPressed k = false)) ∧
    (0xF < (s.getV x).toNat →
      exec (.skp x) s = .next { s with run := .faulted (.keyIndexOutOfRange (s.getV x)) } ∧
      exec (.sknp x) s = .next { s with run := .faulted (.keyIndexOutOfRange (s.getV x)) })

/-- Fx07 reads DT into Vx, Fx15 and Fx18 set DT and ST from Vx, and none changes anything else (R223, R225, R226). -/
def Obligations.TimerRegisterTransfers : Prop :=
  ∀ (s : State) (x : Reg),
    isWordOf (0xF007 + 0x100 * x.toNat) (.ldVxDT x) ∧ setsRegister (.ldVxDT x) s x s.dt ∧
    isWordOf (0xF015 + 0x100 * x.toNat) (.ldDTVx x) ∧
    (∃ t, exec (.ldDTVx x) s = .next t ∧ t.dt = s.getV x ∧ s.changesOnly t {.dt}) ∧
    isWordOf (0xF018 + 0x100 * x.toNat) (.ldSTVx x) ∧
    (∃ t, exec (.ldSTVx x) s = .next t ∧ t.st = s.getV x ∧ s.changesOnly t {.st})

/-- Fx0A enters the wait for a key and writes nothing else in this step (R111, R224). -/
def Obligations.KeyWaitBegins : Prop :=
  ∀ (s : State) (x : Reg),
    isWordOf (0xF00A + 0x100 * x.toNat) (.ldVxK x) ∧
    ∃ t, exec (.ldVxK x) s = .next t ∧ t.run = .waitingForKey x ∧ s.changesOnly t {.run}

/-! ### The whole machine -/

/-- The frame of every instruction, faulting or not: it changes nothing but the parts `mayWrite` lists for it (R21, R22, R25, R27,
R29, R30, R34, R36, R52, R119, R133, R243). The lists follow the spec's rules but for three choices: that Fx55 and Fx65 leave I
(decision D21 of the spec, notes/assumptions/20.md), what a faulting form has changed (decisions D12 and D22,
notes/assumptions/13.md), and which pixels a draw may change (decision D10, notes/assumptions/11.md). -/
def Obligations.InstructionsChangeOnlyTheirParts : Prop :=
  ∀ (i : Instr) (s t : State), exec i s = .next t → s.changesOnly t (mayWrite i s)

/-- No instruction observes the diagnostic output: with another record in its place, every instruction does the same and leaves
that record (R246). -/
def Obligations.DiagnosticsAreNotObserved : Prop :=
  ∀ (i : Instr) (s t : State) (d : List Diagnostic), exec i s = .next t →
    exec i { s with diagnostics := d } = .next { t with diagnostics := d }

/-- Every step keeps the invariant: SP in 0 to 15, memory in its canonical form, RUN a state the machine can be in
(R26, R28, R39, R55, R242). -/
def Obligations.StepKeepsTheInvariant : Prop :=
  ∀ s t : State, s.inv → step s = .next t → t.inv

/-- The invariant holds at reset (R41). -/
def Obligations.ResetMeetsTheInvariant : Prop := State.reset.inv

/-- A ROM load of any length, overrunning or not, keeps the invariant (R264). -/
def Obligations.RomLoadKeepsTheInvariant : Prop :=
  ∀ (rom : List Byte) (s : State), s.inv → (load rom s).inv

/-- From every state of the invariant a step answers a next state: every operation returns, and no instruction is refused or
stops the model (R87, R241, R294). -/
def Obligations.EveryStepAnswers : Prop :=
  ∀ s : State, s.inv → ∃ t, step s = .next t

/-- Whatever a step does, no byte outside program space changes, and the font ROM never does (R32, R33, R55, R56, R71). -/
def Obligations.OnlyProgramSpaceIsWritable : Prop :=
  ∀ s t : State, step s = .next t →
    t.font = s.font ∧ ∀ a : Addr, a.toNat < 0x200 ∨ 0xFFF < a.toNat → t.readByte a = s.readByte a
end

