-- ==== Sys2Proof/Laws/Decode.lean ====
section
/-! SUPPORT. The words of each format as numbers, and the fields of an assembled word. -/

namespace Sys2Proof

/-! ### Assembled words as numbers (R8, R82) -/

theorem wordNNN_eq_ofNat (a : Nibble) (nnn : Imm12) :
    BitVec.ofNat 16 (0x1000 * a.toNat + nnn.toNat) = wordNNN a nnn := by
  apply BitVec.eq_of_toNat_eq
  have := a.isLt; have := nnn.isLt
  simp only [wordNNN, BitVec.toNat_append, BitVec.toNat_ofNat, Nat.shiftLeft_eq]
  rw [← Nat.shiftLeft_eq, ← Nat.shiftLeft_add_eq_or_of_lt nnn.isLt, Nat.shiftLeft_eq]
  omega

theorem wordXKK_eq_ofNat (a : Nibble) (x : Reg) (kk : Byte) :
    BitVec.ofNat 16 (0x1000 * a.toNat + 0x100 * x.toNat + kk.toNat) = wordXKK a x kk := by
  apply BitVec.eq_of_toNat_eq
  have := a.isLt; have := x.isLt; have := kk.isLt
  simp only [wordXKK, BitVec.toNat_append, BitVec.toNat_ofNat]
  rw [← Nat.shiftLeft_add_eq_or_of_lt kk.isLt, ← Nat.shiftLeft_add_eq_or_of_lt x.isLt, Nat.shiftLeft_eq, Nat.shiftLeft_eq]
  omega

theorem wordXYN_eq_ofNat (a : Nibble) (x y : Reg) (n : Nibble) :
    BitVec.ofNat 16 (0x1000 * a.toNat + 0x100 * x.toNat + 0x10 * y.toNat + n.toNat) = wordXYN a x y n := by
  apply BitVec.eq_of_toNat_eq
  have := a.isLt; have := x.isLt; have := y.isLt; have := n.isLt
  have hy : (y ++ n : BitVec 8).toNat < 2 ^ 8 := (y ++ n : BitVec 8).isLt
  simp only [wordXYN, BitVec.toNat_append, BitVec.toNat_ofNat] at hy ⊢
  rw [← Nat.shiftLeft_add_eq_or_of_lt hy, ← Nat.shiftLeft_add_eq_or_of_lt x.isLt, ← Nat.shiftLeft_add_eq_or_of_lt n.isLt,
    Nat.shiftLeft_eq, Nat.shiftLeft_eq, Nat.shiftLeft_eq]
  omega

/-! ### Fields of assembled words (R81) -/

@[simp] theorem fieldA_wordNNN (a : Nibble) (nnn : Imm12) : fieldA (wordNNN a nnn) = a := by
  apply BitVec.eq_of_toNat_eq
  have := a.isLt; have := nnn.isLt
  simp only [← wordNNN_eq_ofNat, fieldA, BitVec.extractLsb'_toNat, BitVec.toNat_ofNat, Nat.shiftRight_eq_div_pow]
  omega

@[simp] theorem fieldNNN_wordNNN (a : Nibble) (nnn : Imm12) : fieldNNN (wordNNN a nnn) = nnn := by
  apply BitVec.eq_of_toNat_eq
  have := a.isLt; have := nnn.isLt
  simp only [← wordNNN_eq_ofNat, fieldNNN, BitVec.extractLsb'_toNat, BitVec.toNat_ofNat, Nat.shiftRight_eq_div_pow]
  omega

@[simp] theorem fieldA_wordXKK (a : Nibble) (x : Reg) (kk : Byte) : fieldA (wordXKK a x kk) = a := by
  apply BitVec.eq_of_toNat_eq
  have := a.isLt; have := x.isLt; have := kk.isLt
  simp only [← wordXKK_eq_ofNat, fieldA, BitVec.extractLsb'_toNat, BitVec.toNat_ofNat, Nat.shiftRight_eq_div_pow]
  omega

@[simp] theorem fieldX_wordXKK (a : Nibble) (x : Reg) (kk : Byte) : fieldX (wordXKK a x kk) = x := by
  apply BitVec.eq_of_toNat_eq
  have := a.isLt; have := x.isLt; have := kk.isLt
  simp only [← wordXKK_eq_ofNat, fieldX, BitVec.extractLsb'_toNat, BitVec.toNat_ofNat, Nat.shiftRight_eq_div_pow]
  omega

@[simp] theorem fieldKK_wordXKK (a : Nibble) (x : Reg) (kk : Byte) : fieldKK (wordXKK a x kk) = kk := by
  apply BitVec.eq_of_toNat_eq
  have := a.isLt; have := x.isLt; have := kk.isLt
  simp only [← wordXKK_eq_ofNat, fieldKK, BitVec.extractLsb'_toNat, BitVec.toNat_ofNat, Nat.shiftRight_eq_div_pow]
  omega

@[simp] theorem fieldA_wordXYN (a : Nibble) (x y : Reg) (n : Nibble) : fieldA (wordXYN a x y n) = a := by
  apply BitVec.eq_of_toNat_eq
  have := a.isLt; have := x.isLt; have := y.isLt; have := n.isLt
  simp only [← wordXYN_eq_ofNat, fieldA, BitVec.extractLsb'_toNat, BitVec.toNat_ofNat, Nat.shiftRight_eq_div_pow]
  omega

@[simp] theorem fieldX_wordXYN (a : Nibble) (x y : Reg) (n : Nibble) : fieldX (wordXYN a x y n) = x := by
  apply BitVec.eq_of_toNat_eq
  have := a.isLt; have := x.isLt; have := y.isLt; have := n.isLt
  simp only [← wordXYN_eq_ofNat, fieldX, BitVec.extractLsb'_toNat, BitVec.toNat_ofNat, Nat.shiftRight_eq_div_pow]
  omega

@[simp] theorem fieldY_wordXYN (a : Nibble) (x y : Reg) (n : Nibble) : fieldY (wordXYN a x y n) = y := by
  apply BitVec.eq_of_toNat_eq
  have := a.isLt; have := x.isLt; have := y.isLt; have := n.isLt
  simp only [← wordXYN_eq_ofNat, fieldY, BitVec.extractLsb'_toNat, BitVec.toNat_ofNat, Nat.shiftRight_eq_div_pow]
  omega

@[simp] theorem fieldN_wordXYN (a : Nibble) (x y : Reg) (n : Nibble) : fieldN (wordXYN a x y n) = n := by
  apply BitVec.eq_of_toNat_eq
  have := a.isLt; have := x.isLt; have := y.isLt; have := n.isLt
  simp only [← wordXYN_eq_ofNat, fieldN, BitVec.extractLsb'_toNat, BitVec.toNat_ofNat, Nat.shiftRight_eq_div_pow]
  omega

/-! ### Bytes of a word (R61) -/

/-- The upper byte at the lower address: the byte order of an instruction word. -/
@[simp] theorem wordOfBytes_hi_lo (w : Word) : wordOfBytes (hiByte w) (loByte w) = w := by
  apply BitVec.eq_of_toNat_eq
  have := w.isLt
  have hl : (loByte w).toNat < 2 ^ 8 := (loByte w).isLt
  simp only [wordOfBytes, BitVec.toNat_append]
  rw [← Nat.shiftLeft_add_eq_or_of_lt hl, Nat.shiftLeft_eq]
  simp only [hiByte, loByte, BitVec.extractLsb'_toNat, Nat.shiftRight_eq_div_pow]
  omega

theorem wordOfBytes_toNat (hi lo : Byte) : (wordOfBytes hi lo).toNat = hi.toNat * 256 + lo.toNat := by
  simp only [wordOfBytes, BitVec.toNat_append]
  rw [← Nat.shiftLeft_add_eq_or_of_lt lo.isLt, Nat.shiftLeft_eq]

/-- The bits of a word of four nibbles. -/
theorem wordXYN_getLsbD (a : Nibble) (x y : Reg) (n : Nibble) (i : Nat) :
    (wordXYN a x y n).getLsbD i =
      if i < 4 then n.getLsbD i else if i < 8 then y.getLsbD (i - 4)
      else if i < 12 then x.getLsbD (i - 8) else a.getLsbD (i - 12) := by
  show ((a ++ x) ++ (y ++ n) : BitVec ((4 + 4) + (4 + 4))).getLsbD i = _
  simp only [BitVec.getLsbD_append]
  rcases Nat.lt_or_ge i 4 with h4 | h4
  · simp [h4, show i < 8 by omega]
  · rcases Nat.lt_or_ge i 8 with h8 | h8
    · simp [h8, Nat.not_lt.mpr h4]
    · rcases Nat.lt_or_ge i 12 with h12 | h12
      · simp [h12, Nat.not_lt.mpr h4, Nat.not_lt.mpr h8, show i - 8 < 4 by omega]
      · simp [Nat.not_lt.mpr h4, Nat.not_lt.mpr h8, Nat.not_lt.mpr h12, show ¬ i - 8 < 4 by omega,
          show i - 8 - 4 = i - 12 by omega]

/-- A format X word with its function byte cut into nibbles. -/
theorem wordXKK_eq_wordXYN (a : Nibble) (x : Reg) (kk : Byte) :
    wordXKK a x kk = wordXYN a x (kk.extractLsb' 4 4) (kk.extractLsb' 0 4) := by
  rw [← wordXKK_eq_ofNat, ← wordXYN_eq_ofNat]
  have := kk.isLt
  congr 1
  simp only [BitVec.extractLsb'_toNat, Nat.shiftRight_eq_div_pow]
  omega

/-- The mask of formats NNN, XKK and XYN keeps the leading nibble (R82, R84). -/
theorem and_maskF000 (w : Word) : w &&& 0xF000 = wordXYN (fieldA w) 0 0 0 := by
  apply BitVec.eq_of_getLsbD_eq
  intro i hi
  rw [wordXYN_getLsbD]
  interval_cases i <;> simp [fieldA]

/-- The mask of format XY keeps the leading nibble and the function nibble (R82, R84). -/
theorem and_maskF00F (w : Word) : w &&& 0xF00F = wordXYN (fieldA w) 0 0 (fieldN w) := by
  apply BitVec.eq_of_getLsbD_eq
  intro i hi
  rw [wordXYN_getLsbD]
  interval_cases i <;> simp [fieldA, fieldN]

/-- The mask of format X keeps the leading nibble and the function byte (R82, R84). -/
theorem and_maskF0FF (w : Word) : w &&& 0xF0FF = wordXYN (fieldA w) 0 (fieldY w) (fieldN w) := by
  apply BitVec.eq_of_getLsbD_eq
  intro i hi
  rw [wordXYN_getLsbD]
  interval_cases i <;> simp [fieldA, fieldY, fieldN]

/-- Clearing y keeps the other three nibbles. -/
theorem and_maskFF0F (w : Word) : w &&& 0xFF0F = wordXYN (fieldA w) (fieldX w) 0 (fieldN w) := by
  apply BitVec.eq_of_getLsbD_eq
  intro i hi
  rw [wordXYN_getLsbD]
  interval_cases i <;> simp [fieldA, fieldX, fieldN]

/-- A word is its four nibbles (R8, R81). -/
theorem word_toNat_fields (w : Word) :
    w.toNat = 0x1000 * (fieldA w).toNat + 0x100 * (fieldX w).toNat + 0x10 * (fieldY w).toNat + (fieldN w).toNat := by
  have := w.isLt
  simp only [fieldA, fieldX, fieldY, fieldN, BitVec.extractLsb'_toNat, Nat.shiftRight_eq_div_pow]
  omega

theorem word_toNat_xkk (w : Word) :
    w.toNat = 0x1000 * (fieldA w).toNat + 0x100 * (fieldX w).toNat + (fieldKK w).toNat := by
  have := w.isLt
  simp only [fieldA, fieldX, fieldKK, BitVec.extractLsb'_toNat, Nat.shiftRight_eq_div_pow]
  omega

theorem word_toNat_nnn (w : Word) : w.toNat = 0x1000 * (fieldA w).toNat + (fieldNNN w).toNat := by
  have := w.isLt
  simp only [fieldA, fieldNNN, BitVec.extractLsb'_toNat, Nat.shiftRight_eq_div_pow]
  omega

/-- A word is its format NNN fields. -/
theorem wordNNN_fields (w : Word) : wordNNN (fieldA w) (fieldNNN w) = w := by
  rw [← wordNNN_eq_ofNat, ← word_toNat_nnn]
  simp

/-- A word is its format XKK fields. -/
theorem wordXKK_fields (w : Word) : wordXKK (fieldA w) (fieldX w) (fieldKK w) = w := by
  rw [← wordXKK_eq_ofNat, ← word_toNat_xkk]
  simp

/-- A word is its format XYN fields. -/
theorem wordXYN_fields (w : Word) : wordXYN (fieldA w) (fieldX w) (fieldY w) (fieldN w) = w := by
  rw [← wordXYN_eq_ofNat, ← word_toNat_fields]
  simp

/-- Words of four nibbles are equal only nibble by nibble. -/
theorem wordXYN_inj {a a' : Nibble} {x x' y y' : Reg} {n n' : Nibble} (h : wordXYN a x y n = wordXYN a' x' y' n') :
    a = a' ∧ x = x' ∧ y = y' ∧ n = n' := by
  have h1 : fieldA (wordXYN a x y n) = a' := by rw [h, fieldA_wordXYN]
  have h2 : fieldX (wordXYN a x y n) = x' := by rw [h, fieldX_wordXYN]
  have h3 : fieldY (wordXYN a x y n) = y' := by rw [h, fieldY_wordXYN]
  have h4 : fieldN (wordXYN a x y n) = n' := by rw [h, fieldN_wordXYN]
  rw [fieldA_wordXYN] at h1
  rw [fieldX_wordXYN] at h2
  rw [fieldY_wordXYN] at h3
  rw [fieldN_wordXYN] at h4
  exact ⟨h1, h2, h3, h4⟩

end Sys2Proof
end

