-- ==== Sys2Proof/Laws/State.lean ====
section
/-! SUPPORT. The state's updates: what each leaves alone, field by field, and register read after write. -/

namespace Sys2Proof.Machine

/-! ### Registers -/

@[simp] theorem State.setV_i (s : State) (x : Reg) (b : Byte) : (s.setV x b).i = s.i := rfl
@[simp] theorem State.setV_pc (s : State) (x : Reg) (b : Byte) : (s.setV x b).pc = s.pc := rfl
@[simp] theorem State.setV_sp (s : State) (x : Reg) (b : Byte) : (s.setV x b).sp = s.sp := rfl
@[simp] theorem State.setV_stack (s : State) (x : Reg) (b : Byte) : (s.setV x b).stack = s.stack := rfl
@[simp] theorem State.setV_dt (s : State) (x : Reg) (b : Byte) : (s.setV x b).dt = s.dt := rfl
@[simp] theorem State.setV_st (s : State) (x : Reg) (b : Byte) : (s.setV x b).st = s.st := rfl
@[simp] theorem State.setV_font (s : State) (x : Reg) (b : Byte) : (s.setV x b).font = s.font := rfl
@[simp] theorem State.setV_mem (s : State) (x : Reg) (b : Byte) : (s.setV x b).mem = s.mem := rfl
@[simp] theorem State.setV_fb (s : State) (x : Reg) (b : Byte) : (s.setV x b).fb = s.fb := rfl
@[simp] theorem State.setV_key (s : State) (x : Reg) (b : Byte) : (s.setV x b).key = s.key := rfl
@[simp] theorem State.setV_run (s : State) (x : Reg) (b : Byte) : (s.setV x b).run = s.run := rfl
@[simp] theorem State.setV_diagnostics (s : State) (x : Reg) (b : Byte) : (s.setV x b).diagnostics = s.diagnostics := rfl
@[simp] theorem State.setV_randDraws (s : State) (x : Reg) (b : Byte) : (s.setV x b).randDraws = s.randDraws := rfl
@[simp] theorem State.setV_schedule (s : State) (x : Reg) (b : Byte) : (s.setV x b).schedule = s.schedule := rfl
@[simp] theorem State.readByte_setV (s : State) (x : Reg) (b : Byte) (a : Addr) : (s.setV x b).readByte a = s.readByte a := rfl
@[simp] theorem State.isPressed_setV (s : State) (x : Reg) (b : Byte) (k : Nibble) :
    (s.setV x b).isPressed k = s.isPressed k := rfl

/-- Register read after write, the register written or another. -/
@[simp] theorem State.getV_setV (s : State) (x y : Reg) (b : Byte) :
    (s.setV x b).getV y = if x = y then b else s.getV y := by
  simp [State.getV, State.setV, Vector.getElem_set, BitVec.toNat_inj]

/-- The register file is the registers. -/
theorem State.v_ext {s t : State} (h : ∀ x, t.getV x = s.getV x) : t.v = s.v := by
  refine Vector.ext fun k hk => ?_
  simpa [State.getV, Nat.mod_eq_of_lt hk] using h (BitVec.ofNat 4 k)

@[simp] theorem State.getV_i (s : State) (a : Addr) (x : Reg) : State.getV { s with i := a } x = s.getV x := rfl
@[simp] theorem State.getV_pc (s : State) (a : Addr) (x : Reg) : State.getV { s with pc := a } x = s.getV x := rfl
@[simp] theorem State.getV_mem (s : State) (m : Memory) (x : Reg) : State.getV { s with mem := m } x = s.getV x := rfl
@[simp] theorem State.getV_fb (s : State) (f : Framebuffer) (x : Reg) : State.getV { s with fb := f } x = s.getV x := rfl
@[simp] theorem State.getV_run (s : State) (r : RunState) (x : Reg) : State.getV { s with run := r } x = s.getV x := rfl

/-! ### Fatal conditions, the diagnostic output, the random draw -/

@[simp] theorem State.fail_run (s : State) (c : FatalCondition) : (s.fail c).run = .faulted c := rfl
@[simp] theorem State.fail_v (s : State) (c : FatalCondition) : (s.fail c).v = s.v := rfl
@[simp] theorem State.fail_i (s : State) (c : FatalCondition) : (s.fail c).i = s.i := rfl
@[simp] theorem State.fail_pc (s : State) (c : FatalCondition) : (s.fail c).pc = s.pc := rfl
@[simp] theorem State.fail_sp (s : State) (c : FatalCondition) : (s.fail c).sp = s.sp := rfl
@[simp] theorem State.fail_stack (s : State) (c : FatalCondition) : (s.fail c).stack = s.stack := rfl
@[simp] theorem State.fail_dt (s : State) (c : FatalCondition) : (s.fail c).dt = s.dt := rfl
@[simp] theorem State.fail_st (s : State) (c : FatalCondition) : (s.fail c).st = s.st := rfl
@[simp] theorem State.fail_font (s : State) (c : FatalCondition) : (s.fail c).font = s.font := rfl
@[simp] theorem State.fail_mem (s : State) (c : FatalCondition) : (s.fail c).mem = s.mem := rfl
@[simp] theorem State.fail_fb (s : State) (c : FatalCondition) : (s.fail c).fb = s.fb := rfl
@[simp] theorem State.fail_key (s : State) (c : FatalCondition) : (s.fail c).key = s.key := rfl
@[simp] theorem State.fail_diagnostics (s : State) (c : FatalCondition) : (s.fail c).diagnostics = s.diagnostics := rfl
@[simp] theorem State.fail_randDraws (s : State) (c : FatalCondition) : (s.fail c).randDraws = s.randDraws := rfl
@[simp] theorem State.fail_schedule (s : State) (c : FatalCondition) : (s.fail c).schedule = s.schedule := rfl
@[simp] theorem State.getV_fail (s : State) (c : FatalCondition) (x : Reg) : (s.fail c).getV x = s.getV x := rfl
@[simp] theorem State.readByte_fail (s : State) (c : FatalCondition) (a : Addr) : (s.fail c).readByte a = s.readByte a := rfl
@[simp] theorem State.isPressed_fail (s : State) (c : FatalCondition) (k : Nibble) :
    (s.fail c).isPressed k = s.isPressed k := rfl

@[simp] theorem State.emit_diagnostics (s : State) (d : Diagnostic) : (s.emit d).diagnostics = s.diagnostics ++ [d] := rfl
@[simp] theorem State.emit_run (s : State) (d : Diagnostic) : (s.emit d).run = s.run := rfl
@[simp] theorem State.emit_mem (s : State) (d : Diagnostic) : (s.emit d).mem = s.mem := rfl
@[simp] theorem State.emit_sp (s : State) (d : Diagnostic) : (s.emit d).sp = s.sp := rfl
@[simp] theorem State.emit_font (s : State) (d : Diagnostic) : (s.emit d).font = s.font := rfl

@[simp] theorem State.drawn_randDraws (s : State) : s.drawn.randDraws = s.randDraws + 1 := rfl
@[simp] theorem State.drawn_run (s : State) : s.drawn.run = s.run := rfl
@[simp] theorem State.drawn_mem (s : State) : s.drawn.mem = s.mem := rfl
@[simp] theorem State.drawn_sp (s : State) : s.drawn.sp = s.sp := rfl
@[simp] theorem State.drawn_font (s : State) : s.drawn.font = s.font := rfl
@[simp] theorem State.getV_drawn (s : State) (x : Reg) : s.drawn.getV x = s.getV x := rfl

/-- Reading depends on the font and on program space alone. -/
theorem State.readByte_congr {s t : State} (hf : t.font = s.font) (hm : t.mem = s.mem) (a : Addr) :
    t.readByte a = s.readByte a := by
  simp only [State.readByte, hf, hm]

/-! ### Frames -/

/-- A frame that allows more holds too. -/
theorem State.changesOnly.mono {s t : State} {A B : Set Part} (h : s.changesOnly t A) (hAB : A ⊆ B) : s.changesOnly t B :=
  fun p hp => h p fun hA => hp (hAB hA)

/-- Two changes in a row change what either does. -/
theorem State.changesOnly.trans {s t u : State} {A : Set Part} (h₁ : s.changesOnly t A) (h₂ : t.changesOnly u A) :
    s.changesOnly u A := by
  intro p hp
  have a := h₁ p hp
  have b := h₂ p hp
  cases p <;> exact Eq.trans b a

/-- No change at all. -/
theorem State.changesOnly_refl (s : State) (A : Set Part) : s.changesOnly s A := by
  intro p _
  cases p <;> rfl

/-- A register write changes that register alone. -/
theorem State.setV_changesOnly (s : State) (x : Reg) (b : Byte) : s.changesOnly (s.setV x b) {.reg x} := by
  intro p hp
  cases p with
  | reg y => simp only [Set.mem_singleton_iff, Part.reg.injEq] at hp; simp [State.sameAt, Ne.symm hp]
  | _ => rfl

/-- Fault entry changes RUN alone (R243). -/
theorem State.fail_changesOnly (s : State) (c : FatalCondition) : s.changesOnly (s.fail c) {.run} := by
  intro p hp
  cases p with
  | run => simp at hp
  | _ => rfl

/-- A write of PC changes PC alone. -/
theorem State.setPc_changesOnly (s : State) (a : Addr) : s.changesOnly { s with pc := a } {.pc} := by
  intro p hp
  cases p with
  | pc => simp at hp
  | _ => rfl

/-- A write of I changes I alone. -/
theorem State.setI_changesOnly (s : State) (a : Addr) : s.changesOnly { s with i := a } {.index} := by
  intro p hp
  cases p with
  | index => simp at hp
  | _ => rfl

/-- A change of memory changes the bytes that read otherwise, and nothing else. -/
theorem State.setMem_changesOnly (s : State) (m : Memory) {A : Set Part}
    (h : ∀ a, Part.byte a ∉ A → State.readByte { s with mem := m } a = s.readByte a) : s.changesOnly { s with mem := m } A := by
  intro p hp
  cases p with
  | byte a => exact h a hp
  | _ => rfl

/-- A change of the framebuffer changes pixels alone. -/
theorem State.setFb_changesOnly (s : State) (fb : Framebuffer) {A : Set Part}
    (h : ∀ x y, Part.pixel x y ∉ A → fb.pixel x y = s.fb.pixel x y) : s.changesOnly { s with fb := fb } A := by
  intro p hp
  cases p with
  | pixel x y => exact h x y hp
  | _ => rfl

/-- A write of RUN changes RUN alone. -/
theorem State.setRun_changesOnly (s : State) (r : RunState) : s.changesOnly { s with run := r } {.run} := by
  intro p hp
  cases p with
  | run => simp at hp
  | _ => rfl

end Sys2Proof.Machine
end

