-- ==== Sys2Proof/Laws/Memory.lean ====
section
/-! SUPPORT. Program space: read after write, and every memory operation keeps the canonical form. -/

namespace Sys2Proof.Machine

theorem Memory.lookup_erase (m : Memory) (a a' : Nat) :
    Memory.lookup (Memory.erase m a) a' = if a' = a then 0 else Memory.lookup m a' := by
  induction m with
  | nil => simp [Memory.erase, Memory.lookup]
  | cons c rest ih =>
    obtain ⟨k, b⟩ := c
    simp only [Memory.erase] at ih ⊢
    by_cases hk : k = a
    · subst hk
      by_cases h : a' = k
      · subst h; simp_all
      · simp [ih, Memory.lookup, h, Ne.symm h]
    · by_cases h : k = a' <;> simp_all [Memory.lookup]

theorem Memory.lookup_insert (m : Memory) (a a' : Nat) (b : Byte) (h : ∀ c ∈ m, c.1 ≠ a) :
    Memory.lookup (Memory.insert m a b) a' = if a' = a then b else Memory.lookup m a' := by
  induction m with
  | nil => simp [Memory.insert, Memory.lookup, eq_comm]
  | cons c rest ih =>
    obtain ⟨k, b'⟩ := c
    simp only [List.mem_cons, forall_eq_or_imp] at h
    obtain ⟨hk, hrest⟩ := h
    simp only [Memory.insert]
    split
    · simp [Memory.lookup, eq_comm]
    · simp only [Memory.lookup, ih hrest]
      by_cases h1 : k = a'
      · subst h1; simp [hk]
      · simp [h1]

theorem Memory.mem_erase {m : Memory} {a : Nat} {c : Host.Cell} : c ∈ Memory.erase m a ↔ c ∈ m ∧ c.1 ≠ a := by
  simp [Memory.erase]

/-- Read after write, at the address written and at any other. -/
@[simp] theorem Memory.lookup_store (m : Memory) (a a' : Nat) (b : Byte) :
    Memory.lookup (Memory.store m a b) a' = if a' = a then b else Memory.lookup m a' := by
  unfold Memory.store
  split
  · next h => subst h; exact Memory.lookup_erase m a a'
  · rw [Memory.lookup_insert _ _ _ _ (fun c hc => (Memory.mem_erase.mp hc).2), Memory.lookup_erase]
    split <;> rfl

theorem Memory.mem_insert {m : Memory} {a : Nat} {b : Byte} {c : Host.Cell} :
    c ∈ Memory.insert m a b ↔ c = (a, b) ∨ c ∈ m := by
  induction m with
  | nil => simp [Memory.insert]
  | cons d rest ih =>
    obtain ⟨k, e⟩ := d
    simp only [Memory.insert]
    split
    · simp
    · simp only [List.mem_cons, ih]; tauto

/-- Dropping a cell keeps the canonical form. -/
theorem Memory.erase_wf {m : Memory} (h : Memory.wf m) (a : Nat) : Memory.wf (Memory.erase m a) :=
  ⟨h.1.filter _, fun c hc => h.2 c (Memory.mem_erase.mp hc).1⟩

/-- Listing a nonzero byte of program space in its place keeps the canonical form. -/
theorem Memory.insert_wf {m : Memory} (h : Memory.wf m) {a : Nat} {b : Byte} (ha : inProgramSpace a) (hb : b ≠ 0)
    (hm : ∀ c ∈ m, c.1 ≠ a) : Memory.wf (Memory.insert m a b) := by
  refine ⟨?_, fun c hc => ?_⟩
  · obtain ⟨hs, -⟩ := h
    induction m with
    | nil => simp [Memory.insert]
    | cons d rest ih =>
      obtain ⟨k, e⟩ := d
      have hk : k ≠ a := hm (k, e) (by simp)
      rw [List.pairwise_cons] at hs
      simp only [Memory.insert]
      split
      · next hlt =>
        refine List.pairwise_cons.mpr ⟨fun c hc => ?_, List.pairwise_cons.mpr hs⟩
        rcases List.mem_cons.mp hc with rfl | hc
        · exact hlt
        · exact lt_trans hlt (hs.1 c hc)
      · refine List.pairwise_cons.mpr ⟨fun c hc => ?_, ih (fun c hc => hm c (by simp [hc])) hs.2⟩
        rcases Memory.mem_insert.mp hc with rfl | hc
        · show k < a
          omega
        · exact hs.1 c hc
  · rcases Memory.mem_insert.mp hc with rfl | hc
    · exact ⟨ha, hb⟩
    · exact h.2 c hc

/-- A store into program space keeps the canonical form. -/
theorem Memory.store_wf {m : Memory} (h : Memory.wf m) {a : Nat} (b : Byte) (ha : inProgramSpace a) :
    Memory.wf (Memory.store m a b) := by
  unfold Memory.store
  split
  · exact Memory.erase_wf h a
  · next hb => exact Memory.insert_wf (Memory.erase_wf h a) ha hb fun c hc => (Memory.mem_erase.mp hc).2

/-- Canonical memories that read alike are equal. -/
theorem Memory.ext_of_wf {m m' : Memory} (h : Memory.wf m) (h' : Memory.wf m')
    (hr : ∀ a, Memory.lookup m a = Memory.lookup m' a) : m = m' := by
  have key : ∀ {m : Memory}, Memory.wf m → ∀ a b, (a, b) ∈ m ↔ b ≠ 0 ∧ Memory.lookup m a = b := by
    intro m h a b
    induction m with
    | nil => exact ⟨fun hm => by simp at hm, fun hb => absurd hb.2.symm hb.1⟩
    | cons d rest ih =>
      obtain ⟨k, e⟩ := d
      obtain ⟨hs, hc⟩ := h
      rw [List.pairwise_cons] at hs
      have ih := ih ⟨hs.2, fun c hc' => hc c (by simp [hc'])⟩
      have he : e ≠ 0 := (hc (k, e) (by simp)).2
      simp only [List.mem_cons, Prod.mk.injEq, Memory.lookup]
      by_cases hk : k = a
      · subst hk
        have : (k, b) ∉ rest := fun hm => lt_irrefl k (hs.1 (k, b) hm)
        simp only [this, or_false, true_and, if_true]
        exact ⟨fun hb => ⟨hb ▸ he, hb.symm⟩, fun hb => hb.2.symm⟩
      · simp only [hk, Ne.symm hk, false_and, false_or, if_false, ih]
  have hperm : m.Perm m' := by
    refine (List.perm_ext_iff_of_nodup ?_ ?_).mpr fun c => ?_
    · exact h.1.imp fun hlt he => by rw [he] at hlt; exact lt_irrefl _ hlt
    · exact h'.1.imp fun hlt he => by rw [he] at hlt; exact lt_irrefl _ hlt
    · obtain ⟨a, b⟩ := c
      rw [key h, key h', hr]
  exact hperm.eq_of_pairwise (fun p q _ _ hpq hqp => absurd hpq (lt_asymm hqp)) h.1 h'.1

/-! ### Reads and writes by address -/

/-- Storing at an address of program space: that byte reads as stored, every other as before (R53, R55). -/
theorem State.readByte_store (s : State) {a : Addr} (ha : inProgramSpace a.toNat) (b : Byte) (a' : Addr) :
    State.readByte { s with mem := Memory.store s.mem a.toNat b } a' = if a' = a then b else s.readByte a' := by
  by_cases h : a' = a
  · subst h
    have : ¬ a'.toNat < 80 := by have := ha.1; omega
    simp [State.readByte, this, ha.1, ha.2]
  · have : a'.toNat ≠ a.toNat := fun e => h (BitVec.eq_of_toNat_eq e)
    simp [State.readByte, h, this]

/-- A write either stores in program space or is refused with the address (R55). -/
theorem writeByte_cases (m : Memory) (a : Addr) (b : Byte) :
    (inProgramSpace a.toNat ∧ writeByte m a b = .ok (Memory.store m a.toNat b)) ∨
    (¬ inProgramSpace a.toNat ∧ writeByte m a b = .error (.invalidWrite a)) := by
  by_cases h : inProgramSpace a.toNat
  · exact .inl ⟨h, if_pos h⟩
  · exact .inr ⟨h, if_neg h⟩

/-- Outside program space a read does not depend on memory (R50, R53). -/
theorem State.readByte_outside (s : State) (m : Memory) {a : Addr} (ha : ¬ inProgramSpace a.toNat) :
    State.readByte { s with mem := m } a = s.readByte a := by
  simp only [State.readByte, if_neg ha]

/-- A checked address sum fits or overflows (R11). -/
theorem add16c_cases (a : Addr) (k : Nat) :
    (a.toNat + k ≤ 0xFFFF ∧ ∃ a', add16c a k = .ok a' ∧ a'.toNat = a.toNat + k) ∨
    (0xFFFF < a.toNat + k ∧ add16c a k = .error (.addressOverflow (a.toNat + k))) := by
  by_cases h : a.toNat + k ≤ 0xFFFF
  · exact .inl ⟨h, _, if_pos h, by simp; omega⟩
  · exact .inr ⟨by omega, if_neg h⟩

theorem add16c_ok {a : Addr} {k : Nat} (h : a.toNat + k ≤ 0xFFFF) : add16c a k = .ok (a + BitVec.ofNat 16 k) := by
  simp only [add16c, if_pos h]
  congr 1
  apply BitVec.eq_of_toNat_eq
  simp [BitVec.toNat_add]

/-- Storing bytes keeps the canonical form. -/
theorem storeBytes_wf (base : Addr) (bytes : List Byte) :
    ∀ (k : Nat) (m : Memory), Memory.wf m → Memory.wf (storeBytes base k bytes m).1 := by
  induction bytes with
  | nil => intro k m h; exact h
  | cons b rest ih =>
    intro k m h
    simp only [storeBytes]
    rcases add16c_cases base k with ⟨_, a, ha, _⟩ | ⟨_, ha⟩ <;> simp only [ha]
    · rcases writeByte_cases m a b with ⟨hp, hw⟩ | ⟨_, hw⟩ <;> simp only [hw]
      · exact ih _ _ (Memory.store_wf h b hp)
      · exact h
    · exact h

/-- Everything storing bytes does: with every address in program space it stores them all and raises nothing; otherwise it
stops at the first address outside with that address (R63, R203, R204, decision D22). -/
theorem storeBytes_lookup (base : Addr) (bytes : List Byte) :
    ∀ (k : Nat) (m : Memory), (∀ j, j < bytes.length → inProgramSpace (base.toNat + k + j)) →
      (storeBytes base k bytes m).2 = none ∧
      ∀ a, Memory.lookup (storeBytes base k bytes m).1 a =
        if h : base.toNat + k ≤ a ∧ a < base.toNat + k + bytes.length then bytes[a - (base.toNat + k)]
        else Memory.lookup m a := by
  induction bytes with
  | nil => intro k m _; exact ⟨rfl, fun a => by rw [dif_neg (by simp)]; rfl⟩
  | cons b rest ih =>
    intro k m h
    have h0 := h 0 (by simp)
    obtain ⟨_, a0, ha, hn⟩ | ⟨hov, _⟩ := add16c_cases base k
    · have hp : inProgramSpace a0.toNat := by rw [hn]; simpa using h0
      have hw : writeByte m a0 b = .ok (Memory.store m a0.toNat b) := if_pos hp
      simp only [storeBytes, ha, hw]
      obtain ⟨h1, h2⟩ := ih (k + 1) (Memory.store m a0.toNat b) (fun j hj => by
        have := h (j + 1) (by simpa using hj)
        rwa [show base.toNat + (k + 1) + j = base.toNat + k + (j + 1) by omega])
      refine ⟨h1, fun a => ?_⟩
      rw [h2 a, Memory.lookup_store]
      rcases lt_trichotomy a (base.toNat + k) with hlt | rfl | hgt
      · rw [dif_neg (by omega), dif_neg (by omega), if_neg (by omega)]
      · rw [dif_neg (by omega), dif_pos (by simp), if_pos (by omega)]; simp
      · by_cases hend : a < base.toNat + k + (rest.length + 1)
        · rw [dif_pos (by omega), dif_pos (by simp only [List.length_cons]; omega)]
          simp only [show a - (base.toNat + k) = (a - (base.toNat + (k + 1))) + 1 by omega, List.getElem_cons_succ]
        · rw [dif_neg (by omega), dif_neg (by simp only [List.length_cons]; omega), if_neg (by omega)]
    · exact absurd h0.2 (by omega)

/-- Storing bytes changes no byte outside program space and no byte outside the run of addresses it works through. -/
theorem storeBytes_frame (base : Addr) (bytes : List Byte) :
    ∀ (k : Nat) (m : Memory) (a : Nat), ¬ (base.toNat + k ≤ a ∧ a < base.toNat + k + bytes.length) →
      Memory.lookup (storeBytes base k bytes m).1 a = Memory.lookup m a := by
  induction bytes with
  | nil => intro k m a _; rfl
  | cons b rest ih =>
    intro k m a h
    simp only [List.length_cons] at h
    simp only [storeBytes]
    rcases add16c_cases base k with ⟨_, a0, ha, hn⟩ | ⟨_, ha⟩ <;> simp only [ha]
    rcases writeByte_cases m a0 b with ⟨hp, hw⟩ | ⟨_, hw⟩ <;> simp only [hw]
    rw [ih _ _ _ (by omega), Memory.lookup_store, if_neg (by omega)]

/-- Where storing bytes stops, it stops at the first address outside program space, with the bytes below it stored. -/
theorem storeBytes_stop (base : Addr) (bytes : List Byte) :
    ∀ (k : Nat) (m : Memory) (j : Nat), j < bytes.length → base.toNat + k + j ≤ 0xFFFF →
      (∀ l, l < j → inProgramSpace (base.toNat + k + l)) → ¬ inProgramSpace (base.toNat + k + j) →
      (storeBytes base k bytes m).2 = some (.invalidWrite (BitVec.ofNat 16 (base.toNat + k + j))) ∧
      (storeBytes base k bytes m).1 = (storeBytes base k (bytes.take j) m).1 := by
  induction bytes with
  | nil => intro k m j hj; simp at hj
  | cons b rest ih =>
    intro k m j hj hle hin hout
    rcases add16c_cases base k with ⟨_, a0, ha, hn⟩ | ⟨hov, _⟩
    · cases j with
      | zero =>
        have hp : ¬ inProgramSpace a0.toNat := by rw [hn]; simpa using hout
        have hw : writeByte m a0 b = .error (.invalidWrite a0) := if_neg hp
        have e : BitVec.ofNat 16 (base.toNat + k + 0) = a0 := by
          rw [Nat.add_zero, ← hn, BitVec.ofNat_toNat, BitVec.setWidth_eq]
        simp only [storeBytes, ha, hw, e, List.take_zero, and_self]
      | succ j =>
        have h0 := hin 0 (by omega)
        have hp : inProgramSpace a0.toNat := by rw [hn]; simpa using h0
        have hw : writeByte m a0 b = .ok (Memory.store m a0.toNat b) := if_pos hp
        simp only [storeBytes, ha, hw, List.take_succ_cons]
        have := ih (k + 1) (Memory.store m a0.toNat b) j (by simpa using hj) (by omega)
          (fun l hl => by
            have := hin (l + 1) (by omega)
            rwa [show base.toNat + (k + 1) + l = base.toNat + k + (l + 1) by omega])
          (by rwa [show base.toNat + (k + 1) + j = base.toNat + k + (j + 1) by omega])
        rwa [show base.toNat + (k + 1) + j = base.toNat + k + (j + 1) by omega] at this
    · omega

/-! ### Reset -/

/-- Memory after reset is in its canonical form. -/
theorem reset_mem_wf : Memory.wf State.reset.mem := by simp [State.reset, Memory.wf]

end Sys2Proof.Machine
end

