-- ==== Sys2Proof/Laws/Display.lean ====
section
/-! SUPPORT. The framebuffer: pixel read after write, what `xor_pixel` does, and everything a sprite's rows do to the pixels and
to the collision flag. -/

namespace Sys2Proof.Machine

/-- Pixel read after write. -/
theorem Framebuffer.pixel_setPixel (fb : Framebuffer) (x x' : Fin 64) (y y' : Fin 32) (b : Bool) :
    (fb.setPixel x y b).pixel x' y' = if x' = x ∧ y' = y then b else fb.pixel x' y' := by
  simp only [Framebuffer.pixel, Framebuffer.setPixel, Vector.getElem_set, Fin.ext_iff]
  by_cases hy : y.val = y'.val
  · by_cases hx : x.val = x'.val
    · simp [hx, hy]
    · simp [hy, hx, Ne.symm hx]
  · simp [hy, Ne.symm hy]

/-- The framebuffer is its pixels. -/
theorem Framebuffer.ext_pixel {fb fb' : Framebuffer} (h : ∀ x y, fb.pixel x y = fb'.pixel x y) : fb = fb' := by
  refine Vector.ext fun r hr => Vector.ext fun c hc => ?_
  exact h ⟨c, hc⟩ ⟨r, hr⟩

@[simp] theorem clearDisplay_pixel (x : Fin 64) (y : Fin 32) : Framebuffer.pixel clearDisplay x y = false := by
  simp [Framebuffer.pixel, clearDisplay]

/-- `xor_pixel` toggles the wrapped pixel and no other, and reports what it was (R130). -/
theorem xorPixel_pixel (fb : Framebuffer) (x y : Nat) (cx : Fin 64) (cy : Fin 32) :
    (xorPixel fb x y).1.pixel cx cy =
      if cx = wrapX x ∧ cy = wrapY y then !fb.pixel (wrapX x) (wrapY y) else fb.pixel cx cy := by
  simp only [xorPixel, Framebuffer.pixel_setPixel]

theorem xorPixel_collided (fb : Framebuffer) (x y : Nat) : (xorPixel fb x y).2 = fb.pixel (wrapX x) (wrapY y) := rfl

/-- The first `n` bits of a sprite row have a set bit for column `cx`. -/
def colsLight (px : Nat) (b : Byte) (n : Nat) (cx : Fin 64) : Prop :=
  ∃ c < n, cx = wrapX (px + c) ∧ b.getLsbD (7 - c) = true

theorem colsLight_succ (px : Nat) (b : Byte) (n : Nat) (cx : Fin 64) :
    colsLight px b (n + 1) cx ↔ colsLight px b n cx ∨ (cx = wrapX (px + n) ∧ b.getLsbD (7 - n) = true) := by
  constructor
  · rintro ⟨c, hc, h⟩
    rcases Nat.lt_succ_iff_lt_or_eq.mp hc with hc | rfl
    · exact .inl ⟨c, hc, h⟩
    · exact .inr h
  · rintro (⟨c, hc, h⟩ | h)
    · exact ⟨c, by omega, h⟩
    · exact ⟨n, by omega, h⟩

/-- The first columns of a sprite row, none of them drawn twice: which pixels they toggle, and when they collide. -/
theorem drawCols_spec (px y : Nat) (b : Byte) (d : Drawing) :
    ∀ n, n ≤ 8 →
      (∀ cx cy, ((List.range n).foldl (drawBit px y b) d).fb.pixel cx cy = true ↔
        Xor (d.fb.pixel cx cy = true) (cy = wrapY y ∧ colsLight px b n cx)) ∧
      (((List.range n).foldl (drawBit px y b) d).collided = true ↔ d.collided = true ∨
        ∃ cx, colsLight px b n cx ∧ d.fb.pixel cx (wrapY y) = true) := by
  intro n
  induction n with
  | zero =>
    intro _
    have : ∀ cx, ¬ colsLight px b 0 cx := fun _ ⟨c, hc, _⟩ => by omega
    simp [this, Xor]
  | succ n ih =>
    intro hn
    obtain ⟨ihp, ihc⟩ := ih (by omega)
    simp only [List.range_succ, List.foldl_append, List.foldl_cons, List.foldl_nil]
    set d₁ := (List.range n).foldl (drawBit px y b) d with hd₁
    have hfresh : ¬ colsLight px b n (wrapX (px + n)) := by
      rintro ⟨c, hc, h, -⟩
      simp only [wrapX, Fin.mk.injEq] at h
      omega
    have hold : d₁.fb.pixel (wrapX (px + n)) (wrapY y) = true ↔ d.fb.pixel (wrapX (px + n)) (wrapY y) = true := by
      rw [ihp]
      simp [hfresh, Xor]
    by_cases hb : b.getLsbD (7 - n) = true
    · simp only [drawBit, hb, if_true]
      refine ⟨fun cx cy => ?_, ?_⟩
      · rw [xorPixel_pixel, colsLight_succ]
        by_cases hat : cx = wrapX (px + n) ∧ cy = wrapY y
        · obtain ⟨rfl, rfl⟩ := hat
          simp only [and_self, if_true, Bool.not_eq_true', hb, or_true, ← Bool.not_eq_true, hold]
          simp [Xor]
        · have : cy = wrapY y ∧ (colsLight px b n cx ∨ cx = wrapX (px + n) ∧ b.getLsbD (7 - n) = true) ↔
              cy = wrapY y ∧ colsLight px b n cx := by tauto
          rw [if_neg hat, ihp, this]
      · rw [Bool.or_eq_true, xorPixel_collided, hold, ihc]
        simp only [colsLight_succ, hb, and_true]
        constructor
        · rintro ((h | ⟨cx, hc, h⟩) | h)
          · exact .inl h
          · exact .inr ⟨cx, .inl hc, h⟩
          · exact .inr ⟨_, .inr rfl, h⟩
        · rintro (h | ⟨cx, hc | rfl, h⟩)
          · exact .inl (.inl h)
          · exact .inl (.inr ⟨cx, hc, h⟩)
          · exact .inr h
    · have : ∀ cx, colsLight px b (n + 1) cx ↔ colsLight px b n cx := fun cx => by
        rw [colsLight_succ]; tauto
      simp only [drawBit, if_neg hb, this]
      exact ⟨ihp, ihc⟩

/-- One sprite row: it toggles the pixels its set bits name and collides where one of them was on (R133). -/
theorem drawRow_spec (px y : Nat) (b : Byte) (d : Drawing) :
    (∀ cx cy, (drawRow px y b d).fb.pixel cx cy = true ↔
      Xor (d.fb.pixel cx cy = true) (cy = wrapY y ∧ colsLight px b 8 cx)) ∧
    ((drawRow px y b d).collided = true ↔ d.collided = true ∨
      ∃ cx, colsLight px b 8 cx ∧ d.fb.pixel cx (wrapY y) = true) :=
  drawCols_spec px y b d 8 (le_refl 8)

/-- Rows `r` to `r + n - 1` of a sprite have a set bit for a pixel. -/
def State.rowsLight (s : State) (px py r n : Nat) (cx : Fin 64) (cy : Fin 32) : Prop :=
  ∃ k, r ≤ k ∧ k < r + n ∧ cy = wrapY (py + k) ∧ colsLight px (s.readByte (s.i + BitVec.ofNat 16 k)) 8 cx

/-- The sprite's lights, counted by rows from 0. -/
theorem State.spriteLights_iff (s : State) (px py n : Nat) (cx : Fin 64) (cy : Fin 32) :
    s.spriteLights px py n cx cy ↔ s.rowsLight px py 0 n cx cy := by
  simp only [State.spriteLights, State.rowsLight, colsLight, wrapX, wrapY, Fin.ext_iff]
  constructor
  · rintro ⟨r, c, hr, hc, hx, hy, hb⟩
    exact ⟨r, by omega, by omega, hy, c, hc, hx, hb⟩
  · rintro ⟨k, _, hk, hy, c, hc, hx, hb⟩
    exact ⟨k, c, by omega, hc, hx, hy, hb⟩

theorem State.rowsLight_succ (s : State) (px py r n : Nat) (cx : Fin 64) (cy : Fin 32) :
    s.rowsLight px py r (n + 1) cx cy ↔
      (cy = wrapY (py + r) ∧ colsLight px (s.readByte (s.i + BitVec.ofNat 16 r)) 8 cx) ∨ s.rowsLight px py (r + 1) n cx cy := by
  simp only [State.rowsLight]
  constructor
  · rintro ⟨k, h1, h2, h⟩
    rcases Nat.eq_or_lt_of_le h1 with rfl | h1
    · exact .inl h
    · exact .inr ⟨k, by omega, by omega, h⟩
  · rintro (h | ⟨k, h1, h2, h⟩)
    · exact ⟨r, le_refl r, by omega, h⟩
    · exact ⟨k, by omega, by omega, h⟩

theorem xor_xor_of_disjoint {P Q R : Prop} (h : R → ¬ Q) : Xor (Xor P Q) R ↔ Xor P (Q ∨ R) := by
  unfold Xor
  tauto

/-- Everything the rows of a sprite do where no address overflows: they raise nothing, toggle the pixels the set bits name and
collide where one of those was on (R133). -/
theorem drawRows_spec (s : State) (px py : Nat) :
    ∀ (n r : Nat) (d : Drawing), r + n ≤ 32 → s.i.toNat + (r + n) ≤ 0x10000 →
      (drawRows s px py r n d).2 = none ∧
      (∀ cx cy, (drawRows s px py r n d).1.fb.pixel cx cy = true ↔
        Xor (d.fb.pixel cx cy = true) (s.rowsLight px py r n cx cy)) ∧
      ((drawRows s px py r n d).1.collided = true ↔ d.collided = true ∨
        ∃ cx cy, s.rowsLight px py r n cx cy ∧ d.fb.pixel cx cy = true) := by
  intro n
  induction n with
  | zero =>
    intro r d _ _
    have : ∀ cx cy, ¬ s.rowsLight px py r 0 cx cy := fun _ _ ⟨k, h1, h2, _⟩ => by omega
    simp [drawRows, this, Xor]
  | succ n ih =>
    intro r d hr hi
    have hok := add16c_ok (a := s.i) (k := r) (by omega)
    simp only [drawRows, hok]
    set b := s.readByte (s.i + BitVec.ofNat 16 r) with hb
    obtain ⟨hp, hc⟩ := drawRow_spec px (py + r) b d
    set d₁ := drawRow px (py + r) b d with hd₁
    obtain ⟨ih0, ihp, ihc⟩ := ih (r + 1) d₁ (by omega) (by omega)
    have hdisj : ∀ cx cy, s.rowsLight px py (r + 1) n cx cy → cy ≠ wrapY (py + r) := by
      rintro cx cy ⟨k, h1, h2, rfl, _⟩ h
      simp only [wrapY, Fin.mk.injEq] at h
      omega
    refine ⟨ih0, fun cx cy => ?_, ?_⟩
    · rw [ihp, hp, State.rowsLight_succ]
      exact xor_xor_of_disjoint fun h hq => hdisj cx cy h hq.1
    · rw [ihc, hc]
      constructor
      · rintro ((h | ⟨cx, hl, hon⟩) | ⟨cx, cy, h, hon⟩)
        · exact .inl h
        · exact .inr ⟨cx, _, (State.rowsLight_succ ..).mpr (.inl ⟨rfl, hl⟩), hon⟩
        · refine .inr ⟨cx, cy, (State.rowsLight_succ ..).mpr (.inr h), ?_⟩
          rw [hp] at hon
          simpa [hdisj cx cy h, Xor] using hon
      · rintro (h | ⟨cx, cy, h, hon⟩)
        · exact .inl (.inl h)
        · rcases (State.rowsLight_succ ..).mp h with ⟨rfl, hl⟩ | h
          · exact .inl (.inr ⟨cx, hl, hon⟩)
          · refine .inr ⟨cx, cy, h, ?_⟩
            rw [hp]
            simpa [hdisj cx cy h, Xor] using hon

/-- Where a row's address overflows, the rows before it are drawn and nothing after it happens (R133, decisions D5 and D22). -/
theorem drawRows_stop (s : State) (px py : Nat) :
    ∀ (n r k : Nat) (d : Drawing), k < n → s.i.toNat + (r + k) = 0x10000 →
      drawRows s px py r n d = ((drawRows s px py r k d).1, some (.addressOverflow 0x10000)) := by
  intro n
  induction n with
  | zero => intro r k d hk; omega
  | succ n ih =>
    intro r k d hk hi
    cases k with
    | zero =>
      have herr : add16c s.i r = .error (.addressOverflow (s.i.toNat + r)) := if_neg (by omega)
      simp only [drawRows, herr, show s.i.toNat + r = 0x10000 by omega]
    | succ k =>
      have hok := add16c_ok (a := s.i) (k := r) (by omega)
      simp only [drawRows, hok]
      exact ih (r + 1) k _ (by omega) (by omega)

end Sys2Proof.Machine
end

