-- ==== Sys2Proof/Laws/Operations.lean ====
section
/-! SUPPORT. The remaining shared operations: each with one lemma that says everything it can do. -/

namespace Sys2Proof.Machine

/-! ### Finishing, skipping, checked operands -/

/-- An instruction that works through bytes ends in the state it reached, or in Faulted with that state's other parts. -/
theorem finish_eq (s : State) (c : Option FatalCondition) :
    finish s c = .next (match c with | none => s | some c => s.fail c) := by
  cases c <;> rfl

/-- A conditional skip: not taken, taken, or taken past the top of the address space (R150). -/
theorem skipIf_cases (cond : Bool) (s : State) :
    (cond = false ∧ skipIf cond s = .next s) ∨
    (cond = true ∧ s.pc.toNat ≤ 0xFFFD ∧ skipIf cond s = .next { s with pc := s.pc + 2 }) ∨
    (cond = true ∧ 0xFFFD < s.pc.toNat ∧ skipIf cond s = raise (.addressOverflow (s.pc.toNat + 2)) s) := by
  cases cond
  · exact .inl ⟨rfl, rfl⟩
  · rcases add16c_cases s.pc 2 with ⟨h, _⟩ | ⟨h, he⟩
    · refine .inr (.inl ⟨rfl, by omega, ?_⟩)
      simp only [skipIf, skip, add16c_ok h, if_true]
      rfl
    · exact .inr (.inr ⟨rfl, by omega, by simp only [skipIf, skip, he, if_true]⟩)

/-- The glyph address of a digit, or the fatal condition above 0xF (R58). -/
theorem glyphAddress_cases (d : Byte) :
    (d.toNat ≤ 0x0F ∧ glyphAddress d = .ok (BitVec.ofNat 16 (d.toNat * 5))) ∨
    (0x0F < d.toNat ∧ glyphAddress d = .error (.invalidGlyph d)) := by
  by_cases h : 0x0F < d.toNat
  · exact .inr ⟨h, if_pos h⟩
  · exact .inl ⟨by omega, if_neg h⟩

/-- The key code of a byte, or the fatal condition above 0xF (R220). -/
theorem keyIndex_cases (b : Byte) :
    (b.toNat ≤ 0x0F ∧ keyIndex b = .ok (b.setWidth 4)) ∨
    (0x0F < b.toNat ∧ keyIndex b = .error (.keyIndexOutOfRange b)) := by
  by_cases h : 0x0F < b.toNat
  · exact .inr ⟨h, if_pos h⟩
  · exact .inl ⟨by omega, if_neg h⟩

/-! ### Flags -/

@[simp] theorem flagByte_true : flagByte true = 0x01 := rfl
@[simp] theorem flagByte_false : flagByte false = 0x00 := rfl

/-- VF after a flag write. -/
@[simp] theorem State.getV_setFlag_flag (s : State) (f : Bool) : (s.setFlag f).getV 0xF = flagByte f := by
  rw [State.setFlag, State.getV_setV]
  exact if_pos rfl

/-- Another register after a flag write. -/
theorem State.getV_setFlag_of_ne (s : State) (f : Bool) {x : Reg} (h : x ≠ 0xF) : (s.setFlag f).getV x = s.getV x := by
  rw [State.setFlag, State.getV_setV]
  exact if_neg (Ne.symm h)

/-- A flag write changes VF alone (R21). -/
theorem State.setFlag_changesOnly (s : State) (f : Bool) : s.changesOnly (s.setFlag f) {.reg 0xF} :=
  State.setV_changesOnly s flagReg (flagByte f)

/-- Result then flag: Vx holds the result unless it is VF, VF holds the flag in any case, and nothing else changes (R171). -/
theorem State.resultThenFlag_spec (s : State) (x : Reg) (result : Byte) (flag : Bool) :
    (x ≠ 0xF → (s.resultThenFlag x result flag).getV x = result) ∧
    (s.resultThenFlag x result flag).getV 0xF = flagByte flag ∧
    s.changesOnly (s.resultThenFlag x result flag) {.reg x, .reg 0xF} := by
  refine ⟨fun hx => ?_, State.getV_setFlag_flag _ _, ?_⟩
  · rw [State.resultThenFlag, State.getV_setFlag_of_ne _ _ hx, State.getV_setV]
    exact if_pos rfl
  · exact State.changesOnly.trans ((State.setV_changesOnly s x result).mono (Set.singleton_subset_iff.mpr (.inl rfl)))
      ((State.setFlag_changesOnly _ flag).mono (Set.singleton_subset_iff.mpr (.inr rfl)))

/-- Flag then shift: VF holds the flag unless it is Vx, Vx holds the shift of its value, or of the flag where it is VF, and
nothing else changes (R171). -/
theorem State.flagThenShift_spec (s : State) (x : Reg) (flag : Bool) (shift : Byte → Byte) :
    (x ≠ 0xF → (s.flagThenShift x flag shift).getV x = shift (s.getV x)) ∧
    (x ≠ 0xF → (s.flagThenShift x flag shift).getV 0xF = flagByte flag) ∧
    (x = 0xF → (s.flagThenShift x flag shift).getV 0xF = shift (flagByte flag)) ∧
    s.changesOnly (s.flagThenShift x flag shift) {.reg x, .reg 0xF} := by
  refine ⟨fun hx => ?_, fun hx => ?_, ?_, ?_⟩
  · rw [State.flagThenShift, State.getV_setV, State.getV_setFlag_of_ne _ _ hx]
    exact if_pos rfl
  · rw [State.flagThenShift, State.getV_setV, State.getV_setFlag_flag]
    exact if_neg hx
  · rintro rfl
    rw [State.flagThenShift, State.getV_setV, State.getV_setFlag_flag]
    exact if_pos rfl
  · exact State.changesOnly.trans ((State.setFlag_changesOnly s flag).mono (Set.singleton_subset_iff.mpr (.inr rfl)))
      ((State.setV_changesOnly _ x _).mono (Set.singleton_subset_iff.mpr (.inl rfl)))

/-! ### Operands -/

@[simp] theorem addrOfImm_toNat (nnn : Imm12) : (addrOfImm nnn).toNat = nnn.toNat := by
  have := nnn.isLt
  simp only [addrOfImm, BitVec.toNat_setWidth]
  omega

@[simp] theorem addrOfByte_toNat (b : Byte) : (addrOfByte b).toNat = b.toNat := by
  have := b.isLt
  simp only [addrOfByte, BitVec.toNat_setWidth]
  omega

@[simp] theorem State.regsUpTo_length (s : State) (x : Reg) : (s.regsUpTo x).length = x.toNat + 1 := by
  simp [State.regsUpTo]

@[simp] theorem State.regsUpTo_getElem (s : State) (x k : Reg) (h : k.toNat < (s.regsUpTo x).length) :
    (s.regsUpTo x)[k.toNat] = s.getV k := by
  simp [State.regsUpTo]

/-! ### Storing at I -/

/-- A memory read of program space is the stored byte (R53). -/
theorem State.readByte_inside (s : State) {a : Addr} (h : inProgramSpace a.toNat) :
    s.readByte a = Memory.lookup s.mem a.toNat := by
  have := h.1
  rw [State.readByte, dif_neg (by omega), if_pos h]

/-- An address sum that fits. -/
theorem addr_add_toNat {a : Addr} {k : Nat} (h : a.toNat + k ≤ 0xFFFF) : (a + BitVec.ofNat 16 k).toNat = a.toNat + k := by
  rw [BitVec.toNat_add, BitVec.toNat_ofNat]
  omega

/-- Everything a store at I does where all its addresses are in program space: the bytes stand there, and memory is the only
field written (R203, R204). -/
theorem storeAtI_spec (s : State) (bytes : List Byte) (h0 : 0x200 ≤ s.i.toNat) (h1 : s.i.toNat + bytes.length ≤ 0x1000) :
    ∃ m, storeAtI bytes s = .next { s with mem := m } ∧
      (∀ k (hk : k < bytes.length), State.readByte { s with mem := m } (s.i + BitVec.ofNat 16 k) = bytes[k]) ∧
      (∀ a : Addr, ¬ (s.i.toNat ≤ a.toNat ∧ a.toNat < s.i.toNat + bytes.length) →
        State.readByte { s with mem := m } a = s.readByte a) := by
  obtain ⟨hn, hl⟩ := storeBytes_lookup s.i bytes 0 s.mem fun j hj => ⟨by omega, by omega⟩
  refine ⟨(storeBytes s.i 0 bytes s.mem).1, by simp only [storeAtI, finish_eq, hn], fun k hk => ?_, fun a ha => ?_⟩
  · have e := addr_add_toNat (a := s.i) (k := k) (by omega)
    rw [State.readByte_inside _ (by rw [e]; exact ⟨by omega, by omega⟩)]
    show Memory.lookup (storeBytes s.i 0 bytes s.mem).1 _ = _
    rw [hl, e, dif_pos (by omega)]
    simp
  · by_cases h : inProgramSpace a.toNat
    · rw [State.readByte_inside _ h, State.readByte_inside _ h]
      show Memory.lookup (storeBytes s.i 0 bytes s.mem).1 _ = _
      rw [hl, dif_neg (by omega)]
    · rw [State.readByte_outside _ _ h]

/-- Everything a store at I does where byte j is the first outside program space: the bytes before it stand, and the store
faults with that address (R203, R204, R243, decision D22). -/
theorem storeAtI_stop (s : State) (bytes : List Byte) (j : Nat) (hj : j < bytes.length) (hle : s.i.toNat + j ≤ 0xFFFF)
    (hin : ∀ l < j, inProgramSpace (s.i.toNat + l)) (hout : ¬ inProgramSpace (s.i.toNat + j)) :
    ∃ m, storeAtI bytes s = raise (.invalidWrite (s.i + BitVec.ofNat 16 j)) { s with mem := m } ∧
      (∀ k (hk : k < j), State.readByte { s with mem := m } (s.i + BitVec.ofNat 16 k) = bytes[k]) ∧
      (∀ a : Addr, ¬ (s.i.toNat ≤ a.toNat ∧ a.toNat < s.i.toNat + j) → State.readByte { s with mem := m } a = s.readByte a) := by
  obtain ⟨hc, hm⟩ := storeBytes_stop s.i bytes 0 s.mem j hj (by omega) (fun l hl => hin l hl) hout
  have hlen : (bytes.take j).length = j := by rw [List.length_take]; omega
  obtain ⟨-, hl⟩ := storeBytes_lookup s.i (bytes.take j) 0 s.mem fun l hl => hin l (by omega)
  have haddr : BitVec.ofNat 16 (s.i.toNat + 0 + j) = s.i + BitVec.ofNat 16 j := by
    apply BitVec.eq_of_toNat_eq
    rw [addr_add_toNat hle, BitVec.toNat_ofNat]
    omega
  rw [haddr] at hc
  refine ⟨(storeBytes s.i 0 bytes s.mem).1, by simp only [storeAtI, finish_eq, hc, raise], fun k hk => ?_, fun a ha => ?_⟩
  · have e := addr_add_toNat (a := s.i) (k := k) (by omega)
    rw [State.readByte_inside _ (by rw [e]; exact hin k hk)]
    show Memory.lookup (storeBytes s.i 0 bytes s.mem).1 _ = _
    rw [hm, hl, e, dif_pos (by omega)]
    simp
  · by_cases h : inProgramSpace a.toNat
    · rw [State.readByte_inside _ h, State.readByte_inside _ h]
      show Memory.lookup (storeBytes s.i 0 bytes s.mem).1 _ = _
      rw [hm, hl, dif_neg (by omega)]
    · rw [State.readByte_outside _ _ h]

/-! ### Loading registers -/

/-- Everything loading registers does where no address overflows (R205). -/
theorem loadRegs_spec (base : Addr) :
    ∀ (n k : Nat) (s : State), k + n ≤ 16 → base.toNat + (k + n) ≤ 0x10000 →
      (loadRegs base k n s).2 = none ∧
      (∀ x : Reg, (loadRegs base k n s).1.getV x =
        if k ≤ x.toNat ∧ x.toNat < k + n then s.readByte (base + BitVec.ofNat 16 x.toNat) else s.getV x) := by
  intro n
  induction n with
  | zero =>
    intro k s _ _
    refine ⟨rfl, fun x => ?_⟩
    rw [if_neg (by omega)]
    rfl
  | succ n ih =>
    intro k s hk hb
    simp only [loadRegs, add16c_ok (a := base) (k := k) (by omega)]
    obtain ⟨h1, h2⟩ := ih (k + 1) (s.setV (BitVec.ofNat 4 k) (s.readByte (base + BitVec.ofNat 16 k))) (by omega) (by omega)
    refine ⟨h1, fun x => ?_⟩
    rw [h2, State.readByte_setV, State.getV_setV]
    by_cases hx : x.toNat = k
    · have hxk : BitVec.ofNat 4 k = x := BitVec.eq_of_toNat_eq (by simp; omega)
      rw [if_neg (by omega), if_pos hxk, if_pos (by omega), hx]
    · have hxk : BitVec.ofNat 4 k ≠ x := fun h => hx (by rw [← h]; simp; omega)
      by_cases h : k + 1 ≤ x.toNat ∧ x.toNat < k + 1 + n
      · rw [if_pos h, if_pos (by omega)]
      · rw [if_neg h, if_neg hxk, if_neg (by omega)]

/-- Where a register's address overflows, the registers before it are loaded and nothing after it happens (R205, decisions D5
and D22). -/
theorem loadRegs_stop (base : Addr) :
    ∀ (n k j : Nat) (s : State), j < n → base.toNat + (k + j) = 0x10000 →
      loadRegs base k n s = ((loadRegs base k j s).1, some (.addressOverflow 0x10000)) := by
  intro n
  induction n with
  | zero => intro k j s hj; omega
  | succ n ih =>
    intro k j s hj hb
    cases j with
    | zero =>
      have herr : add16c base k = .error (.addressOverflow (base.toNat + k)) := if_neg (by omega)
      simp only [loadRegs, herr, show base.toNat + k = 0x10000 by omega]
    | succ j =>
      simp only [loadRegs, add16c_ok (a := base) (k := k) (by omega)]
      exact ih (k + 1) j _ (by omega) (by omega)

/-- Loading registers writes registers and nothing else. -/
theorem loadRegs_changesOnly (base : Addr) :
    ∀ (n k : Nat) (s : State), s.changesOnly (loadRegs base k n s).1 {p | ∃ x, p = .reg x} := by
  intro n
  induction n with
  | zero => intro k s; exact State.changesOnly_refl s _
  | succ n ih =>
    intro k s
    simp only [loadRegs]
    rcases add16c_cases base k with ⟨_, a, ha, _⟩ | ⟨_, ha⟩ <;> simp only [ha]
    · refine State.changesOnly.trans ?_ (ih (k + 1) _)
      exact (State.setV_changesOnly s _ _).mono fun p hp => ⟨_, hp⟩
    · exact State.changesOnly_refl s _

/-- Loading registers leaves every field but the register file as it was. -/
theorem loadRegs_eq (base : Addr) :
    ∀ (n k : Nat) (s : State), (loadRegs base k n s).1 = { s with v := (loadRegs base k n s).1.v } := by
  intro n
  induction n with
  | zero => intro k s; rfl
  | succ n ih =>
    intro k s
    simp only [loadRegs]
    rcases add16c_cases base k with ⟨_, a, ha, _⟩ | ⟨_, ha⟩ <;> simp only [ha]
    exact ih (k + 1) _

/-! ### The key poll -/

/-- `first_pressed_key()` answers a code exactly when that key is pressed and no lower one is (R259). -/
theorem State.firstPressedKey_eq_some {s : State} {k : Nibble} :
    s.firstPressedKey = some k ↔ s.isPressed k = true ∧ ∀ j : Nibble, j.toNat < k.toNat → s.isPressed j = false := by
  have hlist : ((List.range 16).map (BitVec.ofNat 4)) = List.ofFn (fun j : Fin 16 => BitVec.ofNat 4 j.val) := by decide
  have hk := k.isLt
  rw [State.firstPressedKey, hlist]
  rw [List.find?_eq_some_iff_getElem]
  simp only [List.length_ofFn, List.getElem_ofFn, Bool.not_eq_true']
  constructor
  · rintro ⟨hp, i, hi, rfl, hlt⟩
    refine ⟨hp, fun j hj => ?_⟩
    have hj' : j.toNat < i := by simpa [Nat.mod_eq_of_lt hi] using hj
    simpa using hlt j.toNat hj'
  · rintro ⟨hp, hlow⟩
    refine ⟨hp, k.toNat, hk, by simp, fun j hj => hlow _ ?_⟩
    simp; omega

/-- `first_pressed_key()` answers none exactly when no key is pressed (R259). -/
theorem State.firstPressedKey_eq_none {s : State} : s.firstPressedKey = none ↔ ∀ k, s.isPressed k = false := by
  simp only [State.firstPressedKey, List.find?_eq_none, List.mem_map, List.mem_range, forall_exists_index, and_imp,
    Bool.not_eq_true]
  constructor
  · intro h k
    exact h k k.toNat k.isLt (by simp)
  · rintro h _ j _ rfl
    exact h _

/-! ### Fetch -/

/-- A fetch takes the word at PC and advances PC, or overflows at the last two addresses with PC as it was (R102, R103). -/
theorem fetch_cases (s : State) :
    (s.pc.toNat ≤ 0xFFFD ∧
      fetch s = .ok (wordOfBytes (s.readByte s.pc) (s.readByte (s.pc + 1)), { s with pc := s.pc + 2 })) ∨
    (0xFFFD < s.pc.toNat ∧ fetch s = .error (.addressOverflow 0x10000)) := by
  have hpc := s.pc.isLt
  by_cases h : s.pc.toNat ≤ 0xFFFD
  · refine .inl ⟨h, ?_⟩
    simp only [fetch, State.readWord, add16c_ok (a := s.pc) (k := 1) (by omega), add16c_ok (a := s.pc) (k := 2) (by omega)]
    rfl
  · refine .inr ⟨by omega, ?_⟩
    by_cases h1 : s.pc.toNat = 0xFFFF
    · have he : add16c s.pc 1 = .error (.addressOverflow (s.pc.toNat + 1)) := if_neg (by omega)
      simp only [fetch, State.readWord, he, h1]
    · have he : add16c s.pc 2 = .error (.addressOverflow (s.pc.toNat + 2)) := if_neg (by omega)
      simp only [fetch, State.readWord, add16c_ok (a := s.pc) (k := 1) (by omega), he,
        show s.pc.toNat + 2 = 0x10000 by omega]

end Sys2Proof.Machine
end

