-- ==== Sys2Proof/Laws/PerInstr.lean ====
section
/-! SUPPORT. The family EncodedRow: every instruction's word lies in the row of the opcode map the instruction comes from
(spec/30_encoding.md R84). One lemma per constructor. -/

namespace Sys2Proof.Laws.EncodedRow

/-- The word of an instruction matches the instruction's own row of the opcode map (R84). -/
def Statement (i : Instr) : Prop := i.row.accepts (encodeWord i) = true

/-- Format NNN: the row's mask keeps the leading nibble. -/
theorem accepts_wordNNN (a : Nibble) (nnn : Imm12) {p : Word} (hp : wordXYN a 0 0 0 = p) :
    (OpcodeRow.mk p 0xF000).accepts (wordNNN a nnn) = true := by
  rw [OpcodeRow.accepts, and_maskF000, fieldA_wordNNN, hp, beq_self_eq_true]

/-- Format XKK: the row's mask keeps the leading nibble. -/
theorem accepts_wordXKK (a : Nibble) (x : Reg) (kk : Byte) {p : Word} (hp : wordXYN a 0 0 0 = p) :
    (OpcodeRow.mk p 0xF000).accepts (wordXKK a x kk) = true := by
  rw [OpcodeRow.accepts, and_maskF000, fieldA_wordXKK, hp, beq_self_eq_true]

/-- Format XYN: the row's mask keeps the leading nibble. -/
theorem accepts_wordXYN (a : Nibble) (x y : Reg) (n : Nibble) {p : Word} (hp : wordXYN a 0 0 0 = p) :
    (OpcodeRow.mk p 0xF000).accepts (wordXYN a x y n) = true := by
  rw [OpcodeRow.accepts, and_maskF000, fieldA_wordXYN, hp, beq_self_eq_true]

/-- Format XY: the row's mask keeps the leading nibble and the function nibble. -/
theorem accepts_wordXY (a : Nibble) (x y : Reg) (n : Nibble) {p : Word} (hp : wordXYN a 0 0 n = p) :
    (OpcodeRow.mk p 0xF00F).accepts (wordXYN a x y n) = true := by
  rw [OpcodeRow.accepts, and_maskF00F, fieldA_wordXYN, fieldN_wordXYN, hp, beq_self_eq_true]

/-- Format X: the row's mask keeps the leading nibble and the function byte. -/
theorem accepts_wordX (a : Nibble) (x : Reg) (kk : Byte) {p : Word} (hp : wordXKK a 0 kk = p) :
    (OpcodeRow.mk p 0xF0FF).accepts (wordXKK a x kk) = true := by
  rw [OpcodeRow.accepts, and_maskF0FF, wordXKK_eq_wordXYN a x kk, fieldA_wordXYN, fieldY_wordXYN, fieldN_wordXYN,
    ← wordXKK_eq_wordXYN, hp, beq_self_eq_true]

theorem cls : Statement .cls := by unfold Statement; decide
theorem ret : Statement .ret := by unfold Statement; decide
theorem jp (nnn : Imm12) : Statement (.jp nnn) := accepts_wordNNN _ _ (by decide)
theorem call (nnn : Imm12) : Statement (.call nnn) := accepts_wordNNN _ _ (by decide)
theorem seImm (x : Reg) (kk : Byte) : Statement (.seImm x kk) := accepts_wordXKK _ _ _ (by decide)
theorem sneImm (x : Reg) (kk : Byte) : Statement (.sneImm x kk) := accepts_wordXKK _ _ _ (by decide)
theorem seReg (x y : Reg) : Statement (.seReg x y) := accepts_wordXY _ _ _ _ (by decide)
theorem ldImm (x : Reg) (kk : Byte) : Statement (.ldImm x kk) := accepts_wordXKK _ _ _ (by decide)
theorem addImm (x : Reg) (kk : Byte) : Statement (.addImm x kk) := accepts_wordXKK _ _ _ (by decide)
theorem ldReg (x y : Reg) : Statement (.ldReg x y) := accepts_wordXY _ _ _ _ (by decide)
theorem orReg (x y : Reg) : Statement (.orReg x y) := accepts_wordXY _ _ _ _ (by decide)
theorem andReg (x y : Reg) : Statement (.andReg x y) := accepts_wordXY _ _ _ _ (by decide)
theorem xorReg (x y : Reg) : Statement (.xorReg x y) := accepts_wordXY _ _ _ _ (by decide)
theorem addReg (x y : Reg) : Statement (.addReg x y) := accepts_wordXY _ _ _ _ (by decide)
theorem subReg (x y : Reg) : Statement (.subReg x y) := accepts_wordXY _ _ _ _ (by decide)
theorem shr (x : Reg) : Statement (.shr x) := accepts_wordXY _ _ _ _ (by decide)
theorem subnReg (x y : Reg) : Statement (.subnReg x y) := accepts_wordXY _ _ _ _ (by decide)
theorem shl (x : Reg) : Statement (.shl x) := accepts_wordXY _ _ _ _ (by decide)
theorem sneReg (x y : Reg) : Statement (.sneReg x y) := accepts_wordXY _ _ _ _ (by decide)
theorem ldI (nnn : Imm12) : Statement (.ldI nnn) := accepts_wordNNN _ _ (by decide)
theorem jpV0 (nnn : Imm12) : Statement (.jpV0 nnn) := accepts_wordNNN _ _ (by decide)
theorem rnd (x : Reg) (kk : Byte) : Statement (.rnd x kk) := accepts_wordXKK _ _ _ (by decide)
theorem drw (x y : Reg) (n : Nibble) : Statement (.drw x y n) := accepts_wordXYN _ _ _ _ (by decide)
theorem skp (x : Reg) : Statement (.skp x) := accepts_wordX _ _ _ (by decide)
theorem sknp (x : Reg) : Statement (.sknp x) := accepts_wordX _ _ _ (by decide)
theorem ldVxDT (x : Reg) : Statement (.ldVxDT x) := accepts_wordX _ _ _ (by decide)
theorem ldVxK (x : Reg) : Statement (.ldVxK x) := accepts_wordX _ _ _ (by decide)
theorem ldDTVx (x : Reg) : Statement (.ldDTVx x) := accepts_wordX _ _ _ (by decide)
theorem ldSTVx (x : Reg) : Statement (.ldSTVx x) := accepts_wordX _ _ _ (by decide)
theorem addI (x : Reg) : Statement (.addI x) := accepts_wordX _ _ _ (by decide)
theorem ldF (x : Reg) : Statement (.ldF x) := accepts_wordX _ _ _ (by decide)
theorem ldB (x : Reg) : Statement (.ldB x) := accepts_wordX _ _ _ (by decide)
theorem ldMemVx (x : Reg) : Statement (.ldMemVx x) := accepts_wordX _ _ _ (by decide)
theorem ldVxMem (x : Reg) : Statement (.ldVxMem x) := accepts_wordX _ _ _ (by decide)

end Sys2Proof.Laws.EncodedRow
end

