-- ==== Sys2Proof/Laws/Tick.lean ====
section
/-! SUPPORT. The host's operations: what a tick, a poll, a timer decrement and a ROM load come down to. -/

namespace Sys2Proof.Machine

/-! ### A tick -/

theorem advance_of_running {s : State} (h : s.run = .running) : advance s = cpuStep s := by
  unfold advance
  rw [h]

theorem advance_of_waiting {s : State} {x : Reg} (h : s.run = .waitingForKey x) : advance s = .next (pollKey x s) := by
  unfold advance
  rw [h]

theorem advance_of_faulted {s : State} {c : FatalCondition} (h : s.run = .faulted c) : advance s = .next s := by
  unfold advance
  rw [h]

/-- A running tick below the top of the address space executes the word at PC with PC advanced (R101 to R103). -/
theorem advance_of_fetched {s : State} (h : s.run = .running) (hp : s.pc.toNat ≤ 0xFFFD) :
    advance s = executeWord (wordOfBytes (s.readByte s.pc) (s.readByte (s.pc + 1))) { s with pc := s.pc + 2 } := by
  rw [advance_of_running h]
  rcases fetch_cases s with ⟨_, hf⟩ | ⟨hf, _⟩
  · simp only [cpuStep, hf]
  · omega

/-- A running tick at the last two addresses faults (R102, R103). -/
theorem advance_at_the_top {s : State} (h : s.run = .running) (hp : 0xFFFD < s.pc.toNat) :
    advance s = raise (.addressOverflow 0x10000) s := by
  rw [advance_of_running h]
  rcases fetch_cases s with ⟨hf, _⟩ | ⟨_, hf⟩
  · omega
  · simp only [cpuStep, hf]

/-- Executing a word runs the instruction it decodes to, or reports it. -/
theorem executeWord_cases (w : Word) (s : State) :
    (∃ i, decodeWord w = .ok i ∧ executeWord w s = exec i s) ∨
    (∃ e, decodeWord w = .error e ∧ executeWord w s = .next (s.emit (.unknownOpcode w))) := by
  unfold executeWord
  cases h : decodeWord w with
  | ok i => exact .inl ⟨i, rfl, rfl⟩
  | error e => exact .inr ⟨e, rfl, rfl⟩

/-! ### The key poll -/

theorem pollKey_of_pressed {s : State} {x : Reg} {k : Nibble} (h1 : s.isPressed k = true)
    (h2 : ∀ j : Nibble, j.toNat < k.toNat → s.isPressed j = false) :
    pollKey x s = { s.setV x (k.setWidth 8) with run := .running } := by
  simp only [pollKey, State.firstPressedKey_eq_some.mpr ⟨h1, h2⟩]

theorem pollKey_of_released {s : State} {x : Reg} (h : ∀ k, s.isPressed k = false) : pollKey x s = s := by
  simp only [pollKey, State.firstPressedKey_eq_none.mpr h]

/-- A poll changes nothing, or writes a pressed key's code and ends the wait (R112, R113). -/
theorem pollKey_cases (x : Reg) (s : State) :
    pollKey x s = s ∨ ∃ k, s.isPressed k = true ∧ pollKey x s = { s.setV x (k.setWidth 8) with run := .running } := by
  unfold pollKey
  split
  · next k hk => exact .inr ⟨k, (State.firstPressedKey_eq_some.mp hk).1, rfl⟩
  · exact .inl rfl

/-! ### Timers -/

/-- One down and never below zero: natural subtraction (R117). -/
theorem countDown_toNat (t : Byte) : (countDown t).toNat = t.toNat - 1 := by
  unfold countDown
  have := t.isLt
  split
  · rw [BitVec.toNat_sub]
    simp
    omega
  · omega

theorem decrementTimers_of_running {s : State} (h : s.run = .running) :
    decrementTimers s = { s with dt := countDown s.dt, st := countDown s.st } := by
  unfold decrementTimers
  rw [h]

theorem decrementTimers_of_waiting {s : State} {x : Reg} (h : s.run = .waitingForKey x) : decrementTimers s = s := by
  unfold decrementTimers
  rw [h]

theorem decrementTimers_of_faulted {s : State} {c : FatalCondition} (h : s.run = .faulted c) : decrementTimers s = s := by
  unfold decrementTimers
  rw [h]

/-! ### The ROM load -/

/-- A ROM load writes program space, and RUN when it overruns; every other field stays (R264). -/
theorem loadFrom_eq (rom : List Byte) :
    ∀ (k : Nat) (s : State), loadFrom k rom s = { s with mem := (loadFrom k rom s).mem, run := (loadFrom k rom s).run } := by
  induction rom with
  | nil => intro k s; rfl
  | cons b rest ih =>
    intro k s
    unfold loadFrom
    split
    · rfl
    · exact ih (k + 1) _

/-- A ROM load ends faulted exactly when a byte passes the ceiling, with the first address past it (R264). -/
theorem loadFrom_run (rom : List Byte) :
    ∀ (k : Nat) (s : State), k ≤ 3584 → (loadFrom k rom s).run =
      if k + rom.length ≤ 3584 then s.run else .faulted (.romOverrun 0x1000) := by
  induction rom with
  | nil => intro k s hk; rw [if_pos (by simpa using hk)]; rfl
  | cons b rest ih =>
    intro k s hk
    unfold loadFrom
    split
    · next h =>
      rw [if_neg (by simp only [List.length_cons]; omega)]
      simp only [State.fail_run, show 0x200 + k = 0x1000 by omega]
    · next h =>
      rw [ih (k + 1) _ (by omega)]
      simp only [List.length_cons, show k + 1 + rest.length = k + (rest.length + 1) by omega]

/-- The byte at an address after a ROM load: the ROM's where the ROM reaches below the ceiling, else the one before (R264). -/
theorem loadFrom_lookup (rom : List Byte) :
    ∀ (k : Nat) (s : State) (a : Nat), Memory.lookup (loadFrom k rom s).mem a =
      if h : 0x200 + k ≤ a ∧ a < 0x200 + k + rom.length ∧ a ≤ 0xFFF then rom[a - (0x200 + k)] else Memory.lookup s.mem a := by
  induction rom with
  | nil => intro k s a; rw [dif_neg (by simp only [List.length_nil]; omega)]; rfl
  | cons b rest ih =>
    intro k s a
    unfold loadFrom
    split
    · rw [dif_neg (by omega)]; rfl
    · next hk =>
      rw [ih, Memory.lookup_store]
      rcases lt_trichotomy a (0x200 + k) with hlt | rfl | hgt
      · rw [dif_neg (by omega), dif_neg (by omega), if_neg (by omega)]
      · rw [dif_neg (by omega), dif_pos (by simp; omega), if_pos rfl]; simp
      · by_cases hend : a < 0x200 + k + (rest.length + 1) ∧ a ≤ 0xFFF
        · rw [dif_pos (by omega), dif_pos (by simp only [List.length_cons]; omega)]
          simp only [show a - (0x200 + k) = (a - (0x200 + (k + 1))) + 1 by omega, List.getElem_cons_succ]
        · rw [dif_neg (by omega), dif_neg (by simp only [List.length_cons]; omega), if_neg (by omega)]

/-- A ROM load keeps memory's canonical form. -/
theorem loadFrom_wf (rom : List Byte) :
    ∀ (k : Nat) (s : State), Memory.wf s.mem → Memory.wf (loadFrom k rom s).mem := by
  induction rom with
  | nil => intro k s h; exact h
  | cons b rest ih =>
    intro k s h
    unfold loadFrom
    split
    · exact h
    · exact ih _ _ (Memory.store_wf h b ⟨by omega, by omega⟩)

end Sys2Proof.Machine
end

