-- ==== Sys2Proof/Tests/Slice0.lean ====
section
/-! SUPPORT. Tests with expected results from the spec's vectors (spec/95_test_vectors.md, cited by id) or worked by hand from
its rules, and one witness for each statement with hypotheses, showing a state and operands that meet them. -/

namespace Sys2Proof.Tests

open Sys2Proof.Machine

/-! ### Small states -/

/-- The reset state with some registers set. -/
def start (regs : List (Reg × Byte)) : State := regs.foldl (fun s p => s.setV p.1 p.2) State.reset

/-- The same with I set and bytes stored from there up. -/
def startAt (i : Addr) (bytes : List Byte) (regs : List (Reg × Byte)) : State :=
  { start regs with i := i, mem := (storeBytes i 0 bytes []).1 }

/-- The state a step answers. -/
def answer : Result → Option State
  | .next t => some t
  | .fault _ => none
  | .refused _ => none

/-- The state after the step that fetches and runs one word. -/
def ran (w : Nat) (s : State) : Option State := answer (step (s.withFetchWord 16 w))

/-- A Faulted kind as its code and info (R242), 0 when not faulted. -/
def faultOf (t : State) : Nat × Option Nat :=
  match t.run with
  | .faulted c => (c.code, c.info)
  | .running => (0, none)
  | .waitingForKey _ => (0, none)

/-- The pixels of one row that are on. -/
def rowOn (t : State) (y : Fin 32) : List Nat := ((List.finRange 64).filter fun x => t.fb.pixel x y).map Fin.val

/-! ### Words that are not well formed (R86), one for each group, and the ends of each group's ranges -/

theorem test_refuses_nibble_0 : [0x0000, 0x0123, 0x00E1, 0x00ED, 0x00EF, 0x01E0, 0x0FFF].map wordWellFormed =
    List.replicate 7 false := by decide
theorem test_refuses_nibble_5 : [0x5121, 0x500F].map wordWellFormed = [false, false] := by decide
theorem test_refuses_nibble_8 : [0x8008, 0x8009, 0x800A, 0x800B, 0x800C, 0x800D, 0x800F].map wordWellFormed =
    List.replicate 7 false := by decide
theorem test_refuses_nibble_9 : [0x9121, 0x900F].map wordWellFormed = [false, false] := by decide
theorem test_refuses_nibble_E : [0xE000, 0xE09D, 0xE19F, 0xE0A0, 0xEFFF].map wordWellFormed = List.replicate 5 false := by decide
theorem test_refuses_nibble_F : [0xF000, 0xF008, 0xF016, 0xF034, 0xF066, 0xFFFF].map wordWellFormed =
    List.replicate 6 false := by decide
theorem test_decoder_refuses_by_name : (decode [0xFF, 0xFF, 0x12] = .error (.unknownOpcode 0xFFFF)) ∧
    (decode [0x12] = .error .truncated) := by decide

/-! ### Decoding: a word of every row of R84, its fields written out in bits -/

theorem test_decode_fixed :
    decodeTableWord 16 0b0000_0000_1110_0000 = some .cls ∧ decodeTableWord 16 0b0000_0000_1110_1110 = some .ret := by decide
theorem test_decode_nnn :
    decodeTableWord 16 0b0001_0010_0011_0100 = some (.jp 0x234) ∧ decodeTableWord 16 0b0010_1010_1011_1100 = some (.call 0xABC) ∧
    decodeTableWord 16 0b1010_0010_1111_0000 = some (.ldI 0x2F0) ∧ decodeTableWord 16 0b1011_1111_0000_0001 = some (.jpV0 0xF01) := by
  decide
theorem test_decode_xkk :
    decodeTableWord 16 0b0011_0010_0001_0000 = some (.seImm 0x2 0x10) ∧
    decodeTableWord 16 0b0100_0101_1000_0001 = some (.sneImm 0x5 0x81) ∧
    decodeTableWord 16 0b0110_1010_0100_0010 = some (.ldImm 0xA 0x42) ∧
    decodeTableWord 16 0b0111_0011_0000_0011 = some (.addImm 0x3 0x03) ∧
    decodeTableWord 16 0b1100_0011_0000_1111 = some (.rnd 0x3 0x0F) := by decide
theorem test_decode_xy :
    decodeTableWord 16 0b0101_0001_0010_0000 = some (.seReg 0x1 0x2) ∧
    decodeTableWord 16 0b1001_0001_0010_0000 = some (.sneReg 0x1 0x2) ∧
    decodeTableWord 16 0b1000_0001_0010_0000 = some (.ldReg 0x1 0x2) ∧
    decodeTableWord 16 0b1000_0001_0010_0001 = some (.orReg 0x1 0x2) ∧
    decodeTableWord 16 0b1000_0001_0010_0010 = some (.andReg 0x1 0x2) ∧
    decodeTableWord 16 0b1000_0001_0010_0011 = some (.xorReg 0x1 0x2) := by decide
theorem test_decode_xy_flags :
    decodeTableWord 16 0b1000_1101_0010_0100 = some (.addReg 0xD 0x2) ∧
    decodeTableWord 16 0b1000_1101_0010_0101 = some (.subReg 0xD 0x2) ∧
    decodeTableWord 16 0b1000_1101_0010_0110 = some (.shr 0xD) ∧
    decodeTableWord 16 0b1000_1101_0010_0111 = some (.subnReg 0xD 0x2) ∧
    decodeTableWord 16 0b1000_1101_0010_1110 = some (.shl 0xD) := by decide
theorem test_decode_xyn : decodeTableWord 16 0b1101_0001_0010_0101 = some (.drw 0x1 0x2 0x5) := by decide
theorem test_decode_keys_timers :
    decodeTableWord 16 0b1110_0001_1001_1110 = some (.skp 0x1) ∧ decodeTableWord 16 0b1110_0001_1010_0001 = some (.sknp 0x1) ∧
    decodeTableWord 16 0b1111_0011_0000_0111 = some (.ldVxDT 0x3) ∧ decodeTableWord 16 0b1111_0010_0000_1010 = some (.ldVxK 0x2) ∧
    decodeTableWord 16 0b1111_0100_0001_0101 = some (.ldDTVx 0x4) ∧
    decodeTableWord 16 0b1111_0101_0001_1000 = some (.ldSTVx 0x5) := by decide
theorem test_decode_index_memory :
    decodeTableWord 16 0b1111_0110_0001_1110 = some (.addI 0x6) ∧ decodeTableWord 16 0b1111_0111_0010_1001 = some (.ldF 0x7) ∧
    decodeTableWord 16 0b1111_1000_0011_0011 = some (.ldB 0x8) ∧ decodeTableWord 16 0b1111_1001_0101_0101 = some (.ldMemVx 0x9) ∧
    decodeTableWord 16 0b1111_1010_0110_0101 = some (.ldVxMem 0xA) := by decide

/-! ### The step cycle (2.1) -/

/-- S1. -/
theorem test_unknown_word : (answer (step State.reset)).map (fun t => (t.pc, t.diagnostics, t.run)) =
    some (0x202, [.unknownOpcode 0x0000], .running) := by decide
/-- S7: the font bytes as a word. -/
theorem test_fetch_font : (answer (step { State.reset with pc := 0 })).map (fun t => (t.pc, t.diagnostics)) =
    some (0x002, [.unknownOpcode 0xF090]) := by decide
/-- S9 and S10. -/
theorem test_fetch_at_the_top :
    ((answer (step { State.reset with pc := 0xFFFE })).map (fun t => (t.pc, faultOf t)) = some (0xFFFE, 7, some 0x10000)) ∧
    ((answer (step { State.reset with pc := 0xFFFF })).map (fun t => (t.pc, faultOf t)) = some (0xFFFF, 7, some 0x10000)) := by
  decide
/-- S11: no alignment rule. -/
theorem test_odd_pc : (ran 0x6A42 { State.reset with pc := 0x201 }).map (fun t => (t.pc, t.getV 0xA)) = some (0x203, 0x42) := by
  decide
/-- S12 and L1: the ROM's first word runs first. -/
theorem test_load_then_step : (answer (step (load [0x12, 0x00] State.reset))).map (fun t => (t.pc, t.mem)) =
    some (0x200, [(0x200, 0x12)]) := by decide

/-! ### Display (2.2) -/

/-- D1. -/
theorem test_cls : (ran 0x00E0 { start [(0xF, 1)] with
      fb := ((State.reset.fb.setPixel 0 0 true).setPixel 63 31 true) }).map
    (fun t => (rowOn t 0, rowOn t 31, t.getV 0xF, t.pc)) = some ([], [], 1, 0x202) := by decide
/-- D4: the right edge wraps. -/
theorem test_drw_wraps : (ran 0xD011 (startAt 0x300 [0xF0] [(0, 62), (1, 31)])).map (fun t => (rowOn t 31, t.getV 0xF)) =
    some ([0, 1, 62, 63], 0) := by decide
/-- D3 and D8: a lit pixel collides, and the coordinate of DF11 is VF before the draw. -/
theorem test_drw_collides : (ran 0xDF11 { startAt 0x300 [0x80] [(0xF, 5)] with fb := State.reset.fb.setPixel 5 0 true }).map
    (fun t => (rowOn t 0, t.getV 0xF)) = some ([], 1) := by decide

/-! ### Control transfer (2.3) -/

/-- F1. -/
theorem test_ret : (ran 0x00EE { State.reset with sp := 1, stack := State.reset.stack.set 1 0x204 }).map
    (fun t => (t.pc, t.sp, t.stack[1])) = some (0x204, 0, 0x204) := by decide
/-- F2. -/
theorem test_ret_underflow : (ran 0x00EE State.reset).map (fun t => (t.pc, t.sp, faultOf t)) = some (0x202, 0, 2, none) := by decide
/-- F3. -/
theorem test_jp : (ran 0x1234 State.reset).map (fun t => t.pc) = some 0x234 := by decide
/-- F7. -/
theorem test_call : (ran 0x2300 { State.reset with sp := 14 }).map (fun t => (t.pc, t.sp, t.stack[15])) =
    some (0x300, 15, 0x202) := by decide
/-- F8. -/
theorem test_call_overflow : (ran 0x2300 { State.reset with sp := 15 }).map (fun t => (t.pc, t.sp, t.stack[15], faultOf t)) =
    some (0x202, 15, 0, 1, none) := by decide
/-- F9 and F10. -/
theorem test_seImm : ((ran 0x3210 (start [(2, 0x10)])).map (fun t => t.pc) = some 0x204) ∧
    ((ran 0x3210 (start [(2, 0x11)])).map (fun t => t.pc) = some 0x202) := by decide
/-- F11 and F12. -/
theorem test_sneImm : ((ran 0x4210 (start [(2, 0x11)])).map (fun t => t.pc) = some 0x204) ∧
    ((ran 0x4210 (start [(2, 0x10)])).map (fun t => t.pc) = some 0x202) := by decide
/-- F13 and F14. -/
theorem test_seReg : ((ran 0x5120 (start [(1, 7), (2, 7)])).map (fun t => t.pc) = some 0x204) ∧
    ((ran 0x5120 (start [(1, 7), (2, 8)])).map (fun t => t.pc) = some 0x202) := by decide
/-- F16 and F17. -/
theorem test_sneReg : ((ran 0x9120 (start [(1, 7), (2, 8)])).map (fun t => t.pc) = some 0x204) ∧
    ((ran 0x9110 (start [(1, 7)])).map (fun t => t.pc) = some 0x202) := by decide
/-- F19. -/
theorem test_jpV0 : (ran 0xBFFF (start [(0, 0xFF)])).map (fun t => t.pc) = some 0x10FE := by decide

/-! ### Arithmetic and logic (2.4) -/

/-- A1. -/
theorem test_ldImm : (ran 0x6A42 State.reset).map (fun t => (t.getV 0xA, t.pc)) = some (0x42, 0x202) := by decide
/-- A3. -/
theorem test_addImm : (ran 0x7303 (start [(3, 0xFE), (0xF, 0x55)])).map (fun t => (t.getV 3, t.getV 0xF)) = some (0x01, 0x55) := by
  decide
/-- A6. -/
theorem test_ldReg : (ran 0x8010 (start [(1, 9)])).map (fun t => (t.getV 0, t.getV 1)) = some (9, 9) := by decide
/-- A21. -/
theorem test_orReg : (ran 0x8011 (start [(0, 0x0F), (1, 0xF0), (0xF, 0x33)])).map (fun t => (t.getV 0, t.getV 0xF)) =
    some (0xFF, 0x33) := by decide
/-- A22. -/
theorem test_andReg : (ran 0x8012 (start [(0, 0x3C), (1, 0x0F), (0xF, 0x33)])).map (fun t => (t.getV 0, t.getV 0xF)) =
    some (0x0C, 0x33) := by decide
/-- A23. -/
theorem test_xorReg : (ran 0x8013 (start [(0, 0xFF), (1, 0x0F), (0xF, 0x33)])).map (fun t => (t.getV 0, t.getV 0xF)) =
    some (0xF0, 0x33) := by decide
/-- A7. -/
theorem test_addReg : (ran 0x8014 (start [(0, 0xC8), (1, 0x64)])).map (fun t => (t.getV 0, t.getV 0xF)) = some (0x2C, 1) := by decide
/-- A11: the flag wins over the sum. -/
theorem test_addReg_vf : (ran 0x8FF4 (start [(0xF, 0x90)])).map (fun t => t.getV 0xF) = some 0x01 := by decide
/-- A13 and A14. -/
theorem test_subReg : ((ran 0x8015 (start [(0, 5), (1, 7)])).map (fun t => (t.getV 0, t.getV 0xF)) = some (0xFE, 0)) ∧
    ((ran 0x8015 (start [(0, 5), (1, 5)])).map (fun t => (t.getV 0, t.getV 0xF)) = some (0x00, 0)) := by decide
/-- A12. -/
theorem test_subReg_greater : (ran 0x8015 (start [(0, 7), (1, 5)])).map (fun t => (t.getV 0, t.getV 0xF)) = some (0x02, 1) := by
  decide
/-- A27 and A29: y is not read, and with x = F the flag is written, then shifted. -/
theorem test_shr : ((ran 0x8016 (start [(0, 0x04), (1, 0xFF)])).map (fun t => (t.getV 0, t.getV 0xF)) = some (0x02, 0)) ∧
    ((ran 0x8F06 (start [(0xF, 0x03)])).map (fun t => t.getV 0xF) = some 0x00) := by decide
/-- A26. -/
theorem test_shr_flag : (ran 0x8206 (start [(2, 0x05)])).map (fun t => (t.getV 2, t.getV 0xF)) = some (0x02, 1) := by decide
/-- A17 and A18. -/
theorem test_subnReg : ((ran 0x8017 (start [(0, 5), (1, 7)])).map (fun t => (t.getV 0, t.getV 0xF)) = some (0x02, 1)) ∧
    ((ran 0x8017 (start [(0, 7), (1, 5)])).map (fun t => (t.getV 0, t.getV 0xF)) = some (0xFE, 0)) := by decide
/-- A20: the comparison is of the values before the subtraction. -/
theorem test_subnReg_vf : (ran 0x8F17 (start [(0xF, 1), (1, 5)])).map (fun t => t.getV 0xF) = some 0x01 := by decide
/-- A30 and A32. -/
theorem test_shl : ((ran 0x820E (start [(2, 0x81)])).map (fun t => (t.getV 2, t.getV 0xF)) = some (0x02, 1)) ∧
    ((ran 0x800E (start [(0, 0x7F)])).map (fun t => (t.getV 0, t.getV 0xF)) = some (0xFE, 0)) := by decide
/-- A33. -/
theorem test_shl_vf : (ran 0x8F0E (start [(0xF, 0x80)])).map (fun t => t.getV 0xF) = some 0x02 := by decide
/-- A36, and the draw is used up: what the byte is stays free. -/
theorem test_rnd : (ran 0xC300 (start [(3, 7)])).map (fun t => (t.randDraws, t.pc)) = some (1, 0x202) := by decide

/-! ### Index register and memory (2.5) -/

/-- M1. -/
theorem test_ldI : (ran 0xA2F0 State.reset).map (fun t => t.i) = some 0x2F0 := by decide
/-- M2 and M3. -/
theorem test_addI : ((ran 0xF01E { start [(0, 2), (0xF, 9)] with i := 0x0FFF }).map (fun t => (t.i, t.getV 0xF)) = some (0x1001, 9)) ∧
    ((ran 0xF01E { start [(0, 5)] with i := 0xFFFE }).map (fun t => t.i) = some 0x0003) := by decide
/-- M4 and M6. -/
theorem test_ldF : ((ran 0xF529 (start [(5, 0x0A)])).map (fun t => t.i) = some 0x032) ∧
    ((ran 0xF029 { start [(0, 0x10)] with i := 7 }).map (fun t => (t.i, faultOf t)) = some (7, 4, some 0x10)) := by decide
/-- M7. -/
theorem test_ldB : (ran 0xF033 { start [(0, 0x9C)] with i := 0x300 }).map
    (fun t => ([t.readByte 0x300, t.readByte 0x301, t.readByte 0x302], t.i)) = some ([1, 5, 6], 0x300) := by decide
/-- M10: the digits before the fault stand. -/
theorem test_ldB_partial : (ran 0xF033 { start [(0, 0x7B)] with i := 0xFFE }).map
    (fun t => ([t.readByte 0xFFE, t.readByte 0xFFF], faultOf t)) = some ([1, 2], 3, some 0x1000) := by decide
/-- M13. -/
theorem test_ldMemVx : (ran 0xF255 { start [(0, 1), (1, 2), (2, 3), (3, 4)] with i := 0x300 }).map
    (fun t => ([t.readByte 0x300, t.readByte 0x301, t.readByte 0x302, t.readByte 0x303], t.i)) =
    some ([1, 2, 3, 0], 0x300) := by decide
/-- M16. -/
theorem test_ldMemVx_partial : (ran 0xF355 { start [(0, 1), (1, 2), (2, 3), (3, 4)] with i := 0xFFD }).map
    (fun t => ([t.readByte 0xFFD, t.readByte 0xFFE, t.readByte 0xFFF], faultOf t)) = some ([1, 2, 3], 3, some 0x1000) := by decide
/-- M17. -/
theorem test_ldVxMem : (ran 0xF265 (startAt 0x300 [1, 2, 3, 4] [(3, 9)])).map
    (fun t => ([t.getV 0, t.getV 1, t.getV 2, t.getV 3], t.i)) = some ([1, 2, 3, 9], 0x300) := by decide
/-- M20. -/
theorem test_ldVxMem_partial : (ran 0xF265 { start [(0, 7), (1, 7), (2, 7)] with i := 0xFFFE }).map
    (fun t => ([t.getV 0, t.getV 1, t.getV 2], faultOf t)) = some ([0, 0, 7], 7, some 0x10000) := by decide

/-! ### Keys and timers (2.6) -/

/-- K1 and K2. -/
theorem test_skp : ((ran 0xE19E (setPressed 5 true (start [(1, 5)]))).map (fun t => t.pc) = some 0x204) ∧
    ((ran 0xE19E (start [(1, 5)])).map (fun t => t.pc) = some 0x202) := by decide
/-- K5. -/
theorem test_skp_out_of_range : (ran 0xE09E (start [(0, 0x10)])).map (fun t => (t.pc, faultOf t)) = some (0x202, 6, some 0x10) := by
  decide
/-- K3 and K4. -/
theorem test_sknp : ((ran 0xE1A1 (start [(1, 5)])).map (fun t => t.pc) = some 0x204) ∧
    ((ran 0xE1A1 (setPressed 5 true (start [(1, 5)]))).map (fun t => t.pc) = some 0x202) := by decide
/-- K6. -/
theorem test_sknp_out_of_range : (ran 0xE0A1 (start [(0, 0xFF)])).map faultOf = some (6, some 0xFF) := by decide
/-- K13. -/
theorem test_ldVxDT : (ran 0xF307 { State.reset with dt := 0x3C }).map (fun t => (t.getV 3, t.dt)) = some (0x3C, 0x3C) := by decide
/-- K14. -/
theorem test_ldDTVx : (ran 0xF015 (start [(0, 0x3C)])).map (fun t => (t.dt, t.st)) = some (0x3C, 0) := by decide
/-- K15. -/
theorem test_ldSTVx : (ran 0xF018 (start [(0, 0x05)])).map (fun t => (t.dt, t.st)) = some (0, 0x05) := by decide
/-- K11, tick 1: a key held already does not resolve the wait on the tick that enters it. -/
theorem test_ldVxK : (ran 0xF20A (setPressed 0 true (start [(2, 9)]))).map (fun t => (t.run, t.pc, t.getV 2)) =
    some (.waitingForKey 2, 0x202, 9) := by decide
/-- K9: the lowest code wins. -/
theorem test_poll : (answer (advance { setPressed 7 true (setPressed 3 true State.reset) with run := .waitingForKey 2 })).map
    (fun t => (t.run, t.getV 2, t.pc)) = some (.running, 3, 0x200) := by decide
/-- K16 to K19. -/
theorem test_decrementTimers :
    ((decrementTimers { State.reset with dt := 2 }).dt, (decrementTimers { State.reset with dt := 2 }).st,
      (decrementTimers { State.reset with dt := 5, run := .waitingForKey 0 }).dt,
      (decrementTimers { State.reset with dt := 5, run := .faulted .stackOverflow }).dt) = (1, 0, 5, 5) := by decide
/-- P5, steps 6 and 7: the host's schedule is performed in order. -/
theorem test_schedule : (answer (step { State.reset with dt := 4, schedule := [.decrementTimers, .advance] })).map
    (fun t => (t.dt, t.pc, t.schedule)) = some (3, 0x200, [.advance]) := by decide

/-! ### Witnesses: the hypotheses of each statement are met -/

/-- The reset state with an instruction's bytes at 0x200. -/
def holding (hi lo : Byte) : State := load [hi, lo] State.reset

theorem witness_EncodeInvertsDecode :
    (decodeWord 0x8AB0 = .ok (.ldReg 0xA 0xB)) ∧ (decodeWord 0x8AB6 = .ok (.shr 0xA)) ∧ (decodeWord 0x8ABE = .ok (.shl 0xA)) := by
  decide
theorem witness_DecodeFollowsOpcodeMap :
    (decodeWord 0xFA65 = .ok (.ldVxMem 0xA)) ∧ ⟨0xF065, 0xF0FF⟩ ∈ opcodeTable ∧
    OpcodeRow.accepts ⟨0xF065, 0xF0FF⟩ 0xFA65 = true := by decide
theorem witness_StepRunsDecodedInstruction :
    let s := holding 0x6A 0x42
    s.run = .running ∧ s.pc.toNat ≤ 0xFFFD ∧ decode [s.readByte s.pc, s.readByte (s.pc + 1)] = .ok (.ldImm 0xA 0x42, []) ∧
      s.schedule = [] ∧ State.schedule { s with schedule := [.advance, .decrementTimers] } = .advance :: [.decrementTimers] := by decide
theorem witness_StepPerformsHostOperations :
    State.schedule { State.reset with schedule := [.advance] } = .advance :: [] ∧
    State.schedule { State.reset with schedule := [.decrementTimers] } = .decrementTimers :: [] ∧
    State.schedule { State.reset with schedule := [.setPressed 0xF true] } = .setPressed 0xF true :: [] := by decide
theorem witness_UnrecognisedWordIsNoOp :
    let s : State := { State.reset with pc := 0xFFFD }
    s.run = .running ∧ s.pc.toNat ≤ 0xFFFD ∧
      wordWellFormed (wordOfBytes (s.readByte s.pc) (s.readByte (s.pc + 1))) = false := by decide
theorem witness_FetchAtTheTopFaults :
    let s : State := { State.reset with pc := 0xFFFE }
    s.run = .running ∧ 0xFFFE ≤ s.pc.toNat := by decide
theorem witness_WaitingTickPollsTheKeys :
    let s : State := { State.reset with run := .waitingForKey 0xF }
    (s.run = .waitingForKey 0xF ∧ ∀ k, s.isPressed k = false) ∧
    (setPressed 0xF true s).run = .waitingForKey 0xF ∧ (setPressed 0xF true s).isPressed 0xF = true ∧
      (∀ j : Nibble, j.toNat < 0xF → (setPressed 0xF true s).isPressed j = false) := by decide
theorem witness_KeyWaitResolvesOnALaterTick :
    let s := setPressed 0 true (holding 0xF2 0x0A)
    s.run = .running ∧ s.pc.toNat ≤ 0xFFFD ∧
      (wordOfBytes (s.readByte s.pc) (s.readByte (s.pc + 1))).toNat = 0xF00A + 0x100 * (2 : Reg).toNat ∧
      s.isPressed 0 = true ∧ (∀ j : Nibble, j.toNat < (0 : Nibble).toNat → s.isPressed j = false) := by decide
theorem witness_OnlyAPressedKeyEndsTheWait :
    let s : State := { State.reset with run := .waitingForKey 2 }
    s.run = .waitingForKey 2 ∧ step s = .next s := ⟨rfl, rfl⟩
theorem witness_FaultedIsTerminal : State.run { State.reset with run := .faulted .stackOverflow } = .faulted .stackOverflow := rfl
theorem witness_TimersCountDownOnlyWhileRunning :
    State.reset.run = .running ∧ State.run { State.reset with run := .waitingForKey 0 } = .waitingForKey 0 ∧
    State.run { State.reset with run := .faulted .stackUnderflow } = .faulted .stackUnderflow := ⟨rfl, rfl, rfl⟩
theorem witness_TimerReachesZeroAfterItsValue : State.run { State.reset with dt := 0xFF } = .running := rfl
theorem witness_RomLoadCopiesFromLoadAddress :
    (1 < [(0x12 : Byte), 0x00].length ∧ 1 < 3584) ∧ (List.replicate 3584 (0 : Byte)).length ≤ 3584 ∧
    3584 < (List.replicate 3585 (0 : Byte)).length := by
  rw [List.length_replicate, List.length_replicate]
  decide
theorem witness_FirstFetchIsTheRomsFirstWord : (List.replicate 3582 (0 : Byte)).length ≤ 3582 :=
  Nat.le_of_eq List.length_replicate
theorem witness_ResetState : 80 ≤ (0x050 : Addr).toNat := by decide
theorem witness_ReadByteIsTotalByRegion :
    (0x04F : Addr).toNat < 80 ∧ (0x50 ≤ (0x050 : Addr).toNat ∧ (0x1FF : Addr).toNat < 0x200) ∧
    (0x200 ≤ (0x200 : Addr).toNat ∧ (0xFFF : Addr).toNat ≤ 0xFFF) ∧ 0x1000 ≤ (0x1000 : Addr).toNat := by decide
theorem witness_WriteByteOnlyInProgramSpace :
    (0x200 ≤ (0x200 : Addr).toNat ∧ (0x200 : Addr).toNat ≤ 0xFFF) ∧ (0x1FF : Addr).toNat < 0x200 ∧ 0xFFF < (0x1000 : Addr).toNat := by
  decide
theorem witness_StoredBytesAreFetched :
    1 ≤ (1 : Reg).toNat ∧ 0x200 ≤ (startAt 0xFFE [] []).i.toNat ∧ (startAt 0xFFE [] []).i.toNat + (1 : Reg).toNat ≤ 0xFFF := by decide

/-- A framebuffer with the top left pixel on, and a state that draws the glyph of 0 there. -/
def lit : State := { State.reset with fb := State.reset.fb.setPixel 0 0 true }

theorem witness_DrawTogglesTheSpritesPixels :
    (State.i { State.reset with i := 0xFFFF }).toNat + (1 : Nibble).toNat ≤ 0x10000 ∧
    (∃ cx cy, lit.spriteLights 0 0 1 cx cy ∧ lit.fb.pixel cx cy = true) ∧
    (¬ ∃ cx cy, State.reset.spriteLights 0 0 1 cx cy ∧ State.reset.fb.pixel cx cy = true) := by
  refine ⟨by decide, ⟨0, 0, ⟨0, 0, by decide⟩, by decide⟩, fun ⟨cx, cy, _, h⟩ => ?_⟩
  exact absurd h (by rw [show State.reset.fb = clearDisplay from rfl, clearDisplay_pixel]; decide)
theorem witness_DrawPastTheTopFaultsAtThatRow :
    1 < (2 : Nibble).toNat ∧ (State.i { State.reset with i := 0xFFFF }).toNat + 1 = 0x10000 := by decide
theorem witness_DrawTwiceRestoresTheFramebuffer :
    (0 : Reg) ≠ 0xF ∧ (1 : Reg) ≠ 0xF ∧ State.reset.i.toNat + (5 : Nibble).toNat ≤ 0x10000 ∧
    (∃ cx cy, State.reset.spriteLights 0 0 5 cx cy ∧ State.reset.fb.pixel cx cy = false) ∧
    (¬ ∃ cx cy, State.reset.spriteLights 0 0 0 cx cy ∧ State.reset.fb.pixel cx cy = false) :=
  ⟨by decide, by decide, by decide, ⟨0, 0, ⟨0, 0, by decide⟩, by decide⟩, fun ⟨_, _, ⟨_, _, h, _⟩, _⟩ => Nat.not_lt_zero _ h⟩
theorem witness_DisplayBufferIsRowMajor : (31 : Fin 32).val * 64 + (63 : Fin 64).val < 2048 := by decide

theorem witness_RetPopsTheStack :
    State.reset.sp = 0 ∧ (State.sp { State.reset with sp := 15 }).toNat < 16 ∧ State.sp { State.reset with sp := 15 } ≠ 0 := by decide
theorem witness_CallPushesTheReturnAddress :
    State.sp { State.reset with sp := 15 } = 15 ∧ (State.sp { State.reset with sp := 14 }).toNat < 15 := by decide
theorem witness_StackPointerAboveFifteenStops : 15 < (State.sp { State.reset with sp := 16 }).toNat := by decide
theorem witness_ReturnResumesAfterTheCall : (State.sp { State.reset with sp := 14 }).toNat < 15 := by decide
theorem witness_ComparisonSkips :
    let s : State := { start [(1, 7), (2, 7)] with pc := 0xFFFD }
    (s.getV 1 = 7 ∧ s.getV 0 ≠ 7 ∧ s.getV 1 = s.getV 2 ∧ s.getV 0 ≠ s.getV 2) ∧ s.pc.toNat ≤ 0xFFFD ∧
      0xFFFD < (State.pc { s with pc := 0xFFFE }).toNat := by decide

theorem witness_AddSetsSumAndCarry :
    (0 : Reg) ≠ 0xF ∧ 255 < ((start [(0, 0xFF), (1, 1)]).getV 0).toNat + ((start [(0, 0xFF), (1, 1)]).getV 1).toNat ∧
    ¬ 255 < ((start [(0, 0xFF)]).getV 0).toNat + ((start [(0, 0xFF)]).getV 1).toNat := by decide
theorem witness_SubtractSetsDifferenceAndFlag :
    (0 : Reg) ≠ 0xF ∧ ((start [(0, 5), (1, 6)]).getV 0).toNat < ((start [(0, 5), (1, 6)]).getV 1).toNat ∧
    ¬ ((start [(0, 5), (1, 5)]).getV 0).toNat < ((start [(0, 5), (1, 5)]).getV 1).toNat := by decide
theorem witness_ShiftsMoveTheEndBitToVf : (0xE : Reg) ≠ 0xF ∧ (0xF : Reg) = 0xF := by decide

theorem witness_IndexPointsAtTheGlyph :
    ((start [(0, 0x0F)]).getV 0).toNat ≤ 0xF ∧ 0xF < ((start [(0, 0x10)]).getV 0).toNat := by decide
theorem witness_BcdStoresThreeDigits :
    0x200 ≤ (startAt 0xFFD [] []).i.toNat ∧ (startAt 0xFFD [] []).i.toNat + 2 ≤ 0xFFF := by decide
theorem witness_StoreRegistersAtIndex :
    0x200 ≤ (startAt 0xFF0 [] []).i.toNat ∧ (startAt 0xFF0 [] []).i.toNat + (0xF : Reg).toNat ≤ 0xFFF ∧
    (0xF : Reg).toNat ≤ (0xF : Reg).toNat := by decide
theorem witness_StoreFaultsAtTheFirstBadAddress :
    let s := startAt 0xFFE [] []
    s.i.toNat + 2 ≤ 0xFFFF ∧ (∀ l < 2, inProgramSpace (s.i.toNat + l)) ∧ ¬ inProgramSpace (s.i.toNat + 2) ∧
      2 ≤ 2 ∧ 0 < 2 ∧ 1 < 2 ∧ 2 ≤ (0xF : Reg).toNat ∧ (1 : Reg).toNat < 2 := by decide
theorem witness_LoadRegistersFromIndex :
    (startAt 0xFFF0 [] []).i.toNat + (0xF : Reg).toNat ≤ 0xFFFF ∧ (0xF : Reg).toNat ≤ (0xF : Reg).toNat ∧
    2 ≤ (0xF : Reg).toNat ∧ (startAt 0xFFFE [] []).i.toNat + 2 = 0x10000 ∧ (1 : Reg).toNat < 2 := by decide

theorem witness_KeySkips :
    let s : State := { setPressed 0xF true (start [(0, 0xF), (1, 0x10)]) with pc := 0xFFFE }
    ((s.getV 0).toNat = (0xF : Nibble).toNat ∧ s.isPressed 0xF = true ∧ s.isPressed 0x0 = false) ∧ 0xFFFD < s.pc.toNat ∧
      (State.pc { s with pc := 0xFFFD }).toNat ≤ 0xFFFD ∧ 0xF < (s.getV 1).toNat := by decide

theorem witness_InstructionsChangeOnlyTheirParts : exec (.jp 0x234) State.reset = .next { State.reset with pc := 0x234 } := rfl
theorem witness_DiagnosticsAreNotObserved : exec .cls State.reset = .next { State.reset with fb := clearDisplay } := rfl

/-- A state of the invariant at the edge of SP's range. -/
def deepest : State := { State.reset with sp := 15 }

theorem witness_StepKeepsTheInvariant :
    deepest.inv ∧ step deepest = .next { deepest with pc := 0x202, diagnostics := [.unknownOpcode 0x0000] } :=
  ⟨⟨by decide, reset_mem_wf, rfl⟩, rfl⟩
theorem witness_RomLoadKeepsTheInvariant : deepest.inv := ⟨by decide, reset_mem_wf, rfl⟩
theorem witness_EveryStepAnswers : deepest.inv := ⟨by decide, reset_mem_wf, rfl⟩
theorem witness_OnlyProgramSpaceIsWritable :
    step State.reset = .next { State.reset with pc := 0x202, diagnostics := [.unknownOpcode 0x0000] } ∧
    (0x1FF : Addr).toNat < 0x200 ∧ 0xFFF < (0x1000 : Addr).toNat := ⟨rfl, by decide, by decide⟩

end Sys2Proof.Tests
end

section
/-! Control transfer through the stack, the parts of the state each shared operation writes, and the frame of every
instruction (spec/42_flow.md R151, R153; spec/10_state.md R21 to R36). -/

namespace Sys2Proof.Machine

/-! ### What a result ensures -/

/-- Where the result is a next state, that state meets `P`; a stop promises nothing. -/
def Ensures (r : Result) (P : State → Prop) : Prop :=
  match r with
  | .next t => P t
  | .fault _ => True
  | .refused _ => True

theorem Ensures.of_eq_next {r : Result} {P : State → Prop} {t : State} (h : Ensures r P) (hr : r = .next t) : P t := by
  subst hr
  exact h

/-! ### The stack instructions -/

theorem execRet_of_lt {s : State} (h0 : s.sp ≠ 0) (h : s.sp.toNat < 16) :
    execRet s = .next { s with pc := s.stack[s.sp.toNat], sp := s.sp - 1 } := by
  rw [execRet, if_neg h0, dif_pos h]

theorem execRet_of_gt {s : State} (h : 15 < s.sp.toNat) : execRet s = .fault (.stackIndexOutOfRange s.sp) := by
  have h0 : s.sp ≠ 0 := by bv_omega
  rw [execRet, if_neg h0, dif_neg (by omega)]

/-- RET underflows, pops, or stops by the model's own fault (R151). -/
theorem execRet_cases (s : State) :
    (s.sp = 0 ∧ execRet s = raise .stackUnderflow s) ∨
    (s.sp ≠ 0 ∧ ∃ h : s.sp.toNat < 16, execRet s = .next { s with pc := s.stack[s.sp.toNat], sp := s.sp - 1 }) ∨
    (15 < s.sp.toNat ∧ execRet s = .fault (.stackIndexOutOfRange s.sp)) := by
  by_cases h0 : s.sp = 0
  · exact .inl ⟨h0, if_pos h0⟩
  · rcases Nat.lt_or_ge s.sp.toNat 16 with h | h
    · exact .inr (.inl ⟨h0, h, execRet_of_lt h0 h⟩)
    · exact .inr (.inr ⟨h, execRet_of_gt h⟩)

theorem execCall_of_lt (nnn : Imm12) {s : State} (h : s.sp.toNat < 15) :
    execCall nnn s = .next { s with sp := s.sp + 1, stack := s.stack.set (s.sp.toNat + 1) s.pc, pc := addrOfImm nnn } := by
  have h15 : s.sp ≠ 15 := by bv_omega
  rw [execCall, if_neg h15, dif_pos h]

theorem execCall_of_gt (nnn : Imm12) {s : State} (h : 15 < s.sp.toNat) :
    execCall nnn s = .fault (.stackIndexOutOfRange s.sp) := by
  have h15 : s.sp ≠ 15 := by bv_omega
  rw [execCall, if_neg h15, dif_neg (by omega)]

/-- CALL overflows, pushes, or stops by the model's own fault (R153). -/
theorem execCall_cases (nnn : Imm12) (s : State) :
    (s.sp = 15 ∧ execCall nnn s = raise .stackOverflow s) ∨
    (∃ h : s.sp.toNat < 15, execCall nnn s =
      .next { s with sp := s.sp + 1, stack := s.stack.set (s.sp.toNat + 1) s.pc, pc := addrOfImm nnn }) ∨
    (15 < s.sp.toNat ∧ execCall nnn s = .fault (.stackIndexOutOfRange s.sp)) := by
  rcases Nat.lt_trichotomy s.sp.toNat 15 with h | h | h
  · exact .inr (.inl ⟨h, execCall_of_lt nnn h⟩)
  · have h15 : s.sp = 15 := BitVec.eq_of_toNat_eq h
    exact .inl ⟨h15, if_pos h15⟩
  · exact .inr (.inr ⟨h, execCall_of_gt nnn h⟩)

/-! ### Instructions with a checked operand -/

/-- Fx29 points I at the glyph of a digit, or raises `InvalidGlyph` above 0xF (R202). -/
theorem execLdF_cases (x : Reg) (s : State) :
    ((s.getV x).toNat ≤ 0x0F ∧ execLdF x s = .next { s with i := BitVec.ofNat 16 ((s.getV x).toNat * 5) }) ∨
    (0x0F < (s.getV x).toNat ∧ execLdF x s = raise (.invalidGlyph (s.getV x)) s) := by
  unfold execLdF
  rcases glyphAddress_cases (s.getV x) with ⟨hd, h⟩ | ⟨hd, h⟩ <;> rw [h]
  · exact .inl ⟨hd, rfl⟩
  · exact .inr ⟨hd, rfl⟩

/-- Ex9E and ExA1 skip on the key's level, or raise `KeyIndexOutOfRange` above 0xF (R221, R222). -/
theorem keySkip_cases {i : Instr} {x : Reg} (hi : i = .skp x ∨ i = .sknp x) (s : State) :
    ((s.getV x).toNat ≤ 0x0F ∧ ∃ cond, exec i s = skipIf cond s) ∨
    (0x0F < (s.getV x).toNat ∧ exec i s = raise (.keyIndexOutOfRange (s.getV x)) s) := by
  rcases keyIndex_cases (s.getV x) with ⟨hk, h⟩ | ⟨hk, h⟩
  · refine .inl ⟨hk, ?_⟩
    rcases hi with rfl | rfl
    · exact ⟨s.isPressed ((s.getV x).setWidth 4), by simp only [exec, execSkp, h]⟩
    · exact ⟨!s.isPressed ((s.getV x).setWidth 4), by simp only [exec, execSknp, h]⟩
  · refine .inr ⟨hk, ?_⟩
    rcases hi with rfl | rfl <;> simp only [exec, execSkp, execSknp, h]

/-! ### Frames of single writes -/

theorem State.setDt_changesOnly (s : State) (b : Byte) : s.changesOnly { s with dt := b } {.dt} := by
  intro p hp
  cases p with
  | dt => simp at hp
  | _ => rfl

theorem State.setSt_changesOnly (s : State) (b : Byte) : s.changesOnly { s with st := b } {.st} := by
  intro p hp
  cases p with
  | st => simp at hp
  | _ => rfl

theorem State.drawn_changesOnly (s : State) : s.changesOnly s.drawn {.randDraws} := by
  intro p hp
  cases p with
  | randDraws => simp at hp
  | _ => rfl

/-- Two changes in a row, each within its own parts. -/
theorem State.changesOnly.union {s t u : State} {A B : Set Part} (h₁ : s.changesOnly t A) (h₂ : t.changesOnly u B) :
    s.changesOnly u (A ∪ B) :=
  (h₁.mono Set.subset_union_left).trans (h₂.mono Set.subset_union_right)

/-! ### Frames of the shared operations -/

theorem State.resultThenFlag_changesOnly (s : State) (x : Reg) (result : Byte) (flag : Bool) :
    s.changesOnly (s.resultThenFlag x result flag) {.reg x, .reg 0xF} := by
  obtain ⟨-, -, h⟩ := s.resultThenFlag_spec x result flag
  exact h

theorem State.flagThenShift_changesOnly (s : State) (x : Reg) (flag : Bool) (shift : Byte → Byte) :
    s.changesOnly (s.flagThenShift x flag shift) {.reg x, .reg 0xF} := by
  obtain ⟨-, -, -, h⟩ := s.flagThenShift_spec x flag shift
  exact h

/-- A fatal condition adds RUN to the parts changed before it (R243). -/
theorem raise_changesOnly {s t : State} {A : Set Part} (h : s.changesOnly t A) (c : FatalCondition) :
    Ensures (raise c t) (s.changesOnly · ({.run} ∪ A)) := by
  rw [Set.union_comm]
  exact h.union (t.fail_changesOnly c)

/-- An instruction that works through bytes changes what it has written so far, and RUN where it faults. -/
theorem finish_changesOnly {s t : State} {A : Set Part} (h : s.changesOnly t A) (c : Option FatalCondition) :
    Ensures (finish t c) (s.changesOnly · ({.run} ∪ A)) := by
  cases c with
  | none => exact h.mono Set.subset_union_right
  | some c => exact raise_changesOnly h c

/-- A conditional skip changes PC or RUN (R150). -/
theorem skipIf_changesOnly (cond : Bool) (s : State) : Ensures (skipIf cond s) (s.changesOnly · {.pc, .run}) := by
  rcases skipIf_cases cond s with ⟨-, h⟩ | ⟨-, -, h⟩ | ⟨-, -, h⟩ <;> rw [h]
  · exact s.changesOnly_refl _
  · exact (s.setPc_changesOnly _).mono (by simp)
  · exact (s.fail_changesOnly _).mono (by simp)

theorem execRet_changesOnly (s : State) : Ensures (execRet s) (s.changesOnly · {.pc, .sp, .run}) := by
  rcases execRet_cases s with ⟨-, h⟩ | ⟨-, hlt, h⟩ | ⟨-, h⟩ <;> rw [h]
  · exact (s.fail_changesOnly _).mono (by simp)
  · intro p hp
    cases p with
    | pc | sp => simp at hp
    | _ => rfl
  · trivial

theorem execCall_changesOnly (nnn : Imm12) (s : State) :
    Ensures (execCall nnn s) (s.changesOnly · (mayWrite (.call nnn) s)) := by
  rcases execCall_cases nnn s with ⟨-, h⟩ | ⟨hlt, h⟩ | ⟨-, h⟩ <;> rw [h]
  · exact (s.fail_changesOnly _).mono (by simp [mayWrite])
  · intro p hp
    cases p with
    | pc | sp => simp [mayWrite] at hp
    | stackEntry k => exact Vector.getElem_set_ne (by omega) k.isLt fun e => hp (.inr ⟨k, e.symm, rfl⟩)
    | _ => rfl
  · trivial

/-- A store at I changes the bytes it works through, and RUN where it faults (R203, R204). -/
theorem storeAtI_changesOnly (bytes : List Byte) (s : State) :
    Ensures (storeAtI bytes s) (s.changesOnly ·
      ({.run} ∪ {p | ∃ a : Addr, s.i.toNat ≤ a.toNat ∧ a.toNat < s.i.toNat + bytes.length ∧ p = .byte a})) := by
  refine finish_changesOnly (s.setMem_changesOnly _ fun a ha => ?_) _
  by_cases hp : inProgramSpace a.toNat
  · rw [State.readByte_inside _ hp, State.readByte_inside _ hp]
    exact storeBytes_frame s.i bytes 0 s.mem a.toNat fun ⟨h1, h2⟩ => ha ⟨a, h1, h2, rfl⟩
  · exact s.readByte_outside _ hp

/-- Loading `n` registers from V`k` up writes those registers alone (R205). -/
theorem loadRegs_writes (base : Addr) :
    ∀ (n k : Nat) (s : State), s.changesOnly (loadRegs base k n s).1 {p | ∃ r : Reg, r.toNat < k + n ∧ p = .reg r} := by
  intro n
  induction n with
  | zero => intro k s; exact s.changesOnly_refl _
  | succ n ih =>
    intro k s
    simp only [loadRegs]
    rcases add16c_cases base k with ⟨-, a, ha, -⟩ | ⟨-, ha⟩ <;> simp only [ha]
    · have hfirst := s.setV_changesOnly (BitVec.ofNat 4 k) (s.readByte a)
      refine State.changesOnly.trans (hfirst.mono ?_) ((ih (k + 1) _).mono ?_)
      · rintro p rfl
        exact ⟨_, by rw [BitVec.toNat_ofNat]; omega, rfl⟩
      · rintro p ⟨r, hr, rfl⟩
        exact ⟨r, by omega, rfl⟩
    · exact s.changesOnly_refl _

/-- Rows of a sprite change only the pixels they have a set bit for, whether or not a row's address overflows (R133). -/
theorem drawRows_frame (s : State) (px py : Nat) (cx : Fin 64) (cy : Fin 32) :
    ∀ (n r : Nat) (d : Drawing), ¬ s.rowsLight px py r n cx cy →
      (drawRows s px py r n d).1.fb.pixel cx cy = d.fb.pixel cx cy := by
  intro n
  induction n with
  | zero => intro r d _; rfl
  | succ n ih =>
    intro r d hdark
    rw [State.rowsLight_succ, not_or] at hdark
    obtain ⟨hrow, hrest⟩ := hdark
    rcases add16c_cases s.i r with ⟨hle, -⟩ | ⟨-, ha⟩
    · simp only [drawRows, add16c_ok hle]
      rw [ih _ _ hrest, Bool.eq_iff_iff]
      obtain ⟨hpix, -⟩ := drawRow_spec px (py + r) (s.readByte (s.i + BitVec.ofNat 16 r)) d
      simp only [hpix, hrow, Xor, not_false_eq_true, and_true, false_and, or_false]
    · simp only [drawRows, ha]

/-- The rows of a sprite, as far as they come, change only the sprite's pixels. -/
theorem drawRows_changesOnly (s : State) (px py n : Nat) :
    s.changesOnly { s with fb := (drawRows s px py 0 n ⟨s.fb, false⟩).1.fb }
      {p | ∃ cx cy, s.spriteLights px py n cx cy ∧ p = .pixel cx cy} :=
  s.setFb_changesOnly _ fun cx cy hdark =>
    drawRows_frame s px py cx cy n 0 _ fun hl => hdark ⟨cx, cy, (s.spriteLights_iff ..).mpr hl, rfl⟩

/-- A draw changes the sprite's pixels, and VF at its end or RUN where it faults (R133). -/
theorem execDrw_changesOnly (x y : Reg) (n : Nibble) (s : State) :
    Ensures (execDrw x y n s) (s.changesOnly · (mayWrite (.drw x y n) s)) := by
  have hrows := drawRows_changesOnly s (s.getV x).toNat (s.getV y).toNat n.toNat
  unfold execDrw
  split
  · next d c hd =>
    rw [hd] at hrows
    exact (hrows.union (State.fail_changesOnly _ c)).mono (Set.union_subset Set.subset_union_right (by simp [mayWrite]))
  · next d hd =>
    rw [hd] at hrows
    exact (hrows.union (State.setFlag_changesOnly _ d.collided)).mono
      (Set.union_subset Set.subset_union_right (by simp [mayWrite]))

/-- The glyph instruction changes I or RUN (R202). -/
theorem execLdF_changesOnly (x : Reg) (s : State) : Ensures (execLdF x s) (s.changesOnly · {.index, .run}) := by
  rcases execLdF_cases x s with ⟨-, h⟩ | ⟨-, h⟩ <;> rw [h]
  · exact (s.setI_changesOnly _).mono (by simp)
  · exact (s.fail_changesOnly _).mono (by simp)

theorem keySkip_changesOnly {i : Instr} {x : Reg} (hi : i = .skp x ∨ i = .sknp x) (s : State) :
    Ensures (exec i s) (s.changesOnly · {.pc, .run}) := by
  rcases keySkip_cases hi s with ⟨-, cond, h⟩ | ⟨-, h⟩ <;> rw [h]
  · exact skipIf_changesOnly cond s
  · exact (s.fail_changesOnly _).mono (by simp)

theorem execLdMemVx_changesOnly (x : Reg) (s : State) :
    Ensures (execLdMemVx x s) (s.changesOnly · (mayWrite (.ldMemVx x) s)) := by
  have h := storeAtI_changesOnly (s.regsUpTo x) s
  simp only [State.regsUpTo_length, ← Nat.add_assoc, Nat.lt_succ_iff] at h
  exact h

theorem execLdVxMem_changesOnly (x : Reg) (s : State) :
    Ensures (execLdVxMem x s) (s.changesOnly · (mayWrite (.ldVxMem x) s)) := by
  have h := finish_changesOnly (loadRegs_writes s.i (x.toNat + 1) 0 s) (loadRegs s.i 0 (x.toNat + 1) s).2
  simp only [Nat.zero_add, Nat.lt_succ_iff] at h
  exact h

/-! ### The frame of every instruction -/

/-- Every instruction changes only the parts `mayWrite` lists for it. -/
theorem exec_changesOnly (i : Instr) (s : State) : Ensures (exec i s) (s.changesOnly · (mayWrite i s)) := by
  cases i with
  | cls => exact s.setFb_changesOnly _ fun x y h => absurd ⟨x, y, rfl⟩ h
  | ret => exact execRet_changesOnly s
  | jp | jpV0 => exact s.setPc_changesOnly _
  | call nnn => exact execCall_changesOnly nnn s
  | seImm | sneImm | seReg | sneReg => exact skipIf_changesOnly _ s
  | ldImm x | addImm x | ldReg x | orReg x | andReg x | xorReg x | ldVxDT x => exact s.setV_changesOnly x _
  | addReg x | subReg x | subnReg x => exact s.resultThenFlag_changesOnly x _ _
  | shr x | shl x => exact s.flagThenShift_changesOnly x _ _
  | ldI | addI => exact s.setI_changesOnly _
  | rnd x kk => exact (s.drawn_changesOnly.union (s.drawn.setV_changesOnly x _)).mono (by simp [mayWrite])
  | drw x y n => exact execDrw_changesOnly x y n s
  | skp x => exact keySkip_changesOnly (.inl rfl) s
  | sknp x => exact keySkip_changesOnly (.inr rfl) s
  | ldVxK => exact s.setRun_changesOnly _
  | ldDTVx => exact s.setDt_changesOnly _
  | ldSTVx => exact s.setSt_changesOnly _
  | ldF x => exact execLdF_changesOnly x s
  | ldB x => exact storeAtI_changesOnly (bcdDigits (s.getV x)) s
  | ldMemVx x => exact execLdMemVx_changesOnly x s
  | ldVxMem x => exact execLdVxMem_changesOnly x s

/-- Settles O51: each arm of `exec` writes through operations whose frames are known. -/
theorem instructionsChangeOnlyTheirParts : Obligations.InstructionsChangeOnlyTheirParts := by
  intro i s t h
  exact (exec_changesOnly i s).of_eq_next h

end Sys2Proof.Machine
end

section
/-! What a step can do, and the two claims about every step: the invariant (spec/10_state.md R26, R28, R39) and the bytes no
step writes (spec/20_memory.md R55, R56). -/

namespace Sys2Proof.Machine

/-! ### What a tick and a step can do -/

theorem RunState.eq_cases (r : RunState) : r = .running ∨ (∃ x, r = .waitingForKey x) ∨ ∃ c, r = .faulted c := by
  cases r <;> simp

/-- A tick faults in the fetch, runs an instruction, reports a word, polls the keys, or finds the machine faulted
(R101 to R115). -/
theorem advance_cases {s t : State} (h : advance s = .next t) :
    (s.run = .running ∧ 0xFFFD < s.pc.toNat ∧ t = s.fail (.addressOverflow 0x10000)) ∨
    (s.run = .running ∧ s.pc.toNat ≤ 0xFFFD ∧
      ∃ i, decodeWord (wordOfBytes (s.readByte s.pc) (s.readByte (s.pc + 1))) = .ok i ∧
        exec i { s with pc := s.pc + 2 } = .next t) ∨
    (s.run = .running ∧ s.pc.toNat ≤ 0xFFFD ∧
      t = State.emit { s with pc := s.pc + 2 } (.unknownOpcode (wordOfBytes (s.readByte s.pc) (s.readByte (s.pc + 1))))) ∨
    (∃ x, s.run = .waitingForKey x ∧ t = pollKey x s) ∨
    (∃ c, s.run = .faulted c ∧ t = s) := by
  rcases s.run.eq_cases with hr | ⟨x, hr⟩ | ⟨c, hr⟩
  · by_cases hpc : s.pc.toNat ≤ 0xFFFD
    · rw [advance_of_fetched hr hpc] at h
      rcases executeWord_cases (wordOfBytes (s.readByte s.pc) (s.readByte (s.pc + 1))) { s with pc := s.pc + 2 } with
        ⟨i, hd, he⟩ | ⟨_, _, he⟩ <;> rw [he] at h
      · exact .inr (.inl ⟨hr, hpc, i, hd, h⟩)
      · cases h
        exact .inr (.inr (.inl ⟨hr, hpc, rfl⟩))
    · rw [advance_at_the_top hr (by omega)] at h
      cases h
      exact .inl ⟨hr, by omega, rfl⟩
  · rw [advance_of_waiting hr] at h
    cases h
    exact .inr (.inr (.inr (.inl ⟨x, hr, rfl⟩)))
  · rw [advance_of_faulted hr] at h
    cases h
    exact .inr (.inr (.inr (.inr ⟨c, hr, rfl⟩)))

/-- A step takes the host's next operation off the schedule and is a tick, a timer decrement or a key change (R263). -/
theorem step_cases {s t : State} (h : step s = .next t) :
    ((s.schedule = [] ∨ s.schedule.head? = some .advance) ∧ advance { s with schedule := s.schedule.tail } = .next t) ∨
    (s.schedule.head? = some .decrementTimers ∧ t = decrementTimers { s with schedule := s.schedule.tail }) ∨
    (∃ k b, s.schedule.head? = some (.setPressed k b) ∧ t = setPressed k b { s with schedule := s.schedule.tail }) := by
  unfold step at h
  split at h
  · next hs =>
    have hsame : { s with schedule := s.schedule.tail } = s := by rw [hs, List.tail_nil, ← hs]
    exact .inl ⟨.inl hs, by rw [hsame]; exact h⟩
  · next op rest hs =>
    rw [hs]
    cases op with
    | advance => exact .inl ⟨.inr rfl, h⟩
    | decrementTimers => exact .inr (.inl ⟨rfl, (Host.Outcome.next.inj h).symm⟩)
    | setPressed k b => exact .inr (.inr ⟨k, b, rfl, (Host.Outcome.next.inj h).symm⟩)

/-- A timer decrement changes nothing, or counts both timers down (R116, R117). -/
theorem decrementTimers_cases (s : State) :
    decrementTimers s = s ∨ decrementTimers s = { s with dt := countDown s.dt, st := countDown s.st } := by
  rcases s.run.eq_cases with hr | ⟨x, hr⟩ | ⟨c, hr⟩
  · exact .inr (decrementTimers_of_running hr)
  · exact .inl (decrementTimers_of_waiting hr)
  · exact .inl (decrementTimers_of_faulted hr)

/-! ### Fatal conditions record an info their kind can have (R242) -/

/-- An address sum that overflows by at most one records 0x10000 or 0x10001. -/
theorem add16c_error_possible {a : Addr} {k : Nat} {c : FatalCondition} (hk : a.toNat + k ≤ 0x10001)
    (h : add16c a k = .error c) : c.possible = true := by
  rcases add16c_cases a k with ⟨-, _, ha, -⟩ | ⟨hov, ha⟩ <;> rw [ha] at h <;> cases h
  have : a.toNat + k = 0x10000 ∨ a.toNat + k = 0x10001 := by omega
  simpa [FatalCondition.possible] using this

theorem storeBytes_possible (base : Addr) (bytes : List Byte) :
    ∀ (k : Nat) (m : Memory), base.toNat + k ≤ 0x10000 → ∀ c ∈ (storeBytes base k bytes m).2, c.possible = true := by
  induction bytes with
  | nil => intro k m _ c hc; cases hc
  | cons b rest ih =>
    intro k m hk c hc
    rcases add16c_cases base k with ⟨hle, a, ha, -⟩ | ⟨-, ha⟩
    · simp only [storeBytes, ha] at hc
      rcases writeByte_cases m a b with ⟨-, hw⟩ | ⟨hout, hw⟩ <;> simp only [hw] at hc
      · exact ih (k + 1) _ (by omega) c hc
      · cases hc
        simpa only [FatalCondition.possible, Bool.not_eq_true', decide_eq_false_iff_not] using hout
    · simp only [storeBytes, ha] at hc
      cases hc
      exact add16c_error_possible (by omega) ha

theorem loadRegs_possible (base : Addr) :
    ∀ (n k : Nat) (s : State), base.toNat + k ≤ 0x10000 → ∀ c ∈ (loadRegs base k n s).2, c.possible = true := by
  intro n
  induction n with
  | zero => intro k s _ c hc; cases hc
  | succ n ih =>
    intro k s hk c hc
    rcases add16c_cases base k with ⟨hle, a, ha, -⟩ | ⟨-, ha⟩ <;> simp only [loadRegs, ha] at hc
    · exact ih (k + 1) _ (by omega) c hc
    · cases hc
      exact add16c_error_possible (by omega) ha

theorem drawRows_possible (s : State) (px py : Nat) :
    ∀ (n r : Nat) (d : Drawing), s.i.toNat + r ≤ 0x10000 → ∀ c ∈ (drawRows s px py r n d).2, c.possible = true := by
  intro n
  induction n with
  | zero => intro r d _ c hc; cases hc
  | succ n ih =>
    intro r d hr c hc
    rcases add16c_cases s.i r with ⟨hle, a, ha, -⟩ | ⟨-, ha⟩ <;> simp only [drawRows, ha] at hc
    · exact ih (r + 1) _ (by omega) c hc
    · cases hc
      exact add16c_error_possible (by omega) ha

/-! ### The invariant -/

theorem State.fail_inv {s : State} (h : s.inv) {c : FatalCondition} (hc : c.possible = true) : (s.fail c).inv := by
  obtain ⟨hsp, hmem, -⟩ := h
  exact ⟨hsp, hmem, hc⟩

theorem finish_inv {s : State} (h : s.inv) {c : Option FatalCondition} (hc : ∀ e ∈ c, e.possible = true) :
    Ensures (finish s c) State.inv := by
  cases c with
  | none => exact h
  | some e => exact State.fail_inv h (hc e rfl)

theorem skipIf_inv {s : State} (h : s.inv) (cond : Bool) : Ensures (skipIf cond s) State.inv := by
  have := s.pc.isLt
  rcases skipIf_cases cond s with ⟨-, he⟩ | ⟨-, -, he⟩ | ⟨-, hpc, he⟩ <;> rw [he]
  · exact h
  · exact h
  · exact State.fail_inv h (add16c_error_possible (a := s.pc) (k := 2) (by omega) (if_neg (by omega)))

theorem storeAtI_inv {s : State} (h : s.inv) (bytes : List Byte) : Ensures (storeAtI bytes s) State.inv := by
  obtain ⟨hsp, hmem, hrun⟩ := h
  have hi := s.i.isLt
  have hstored : State.inv { s with mem := (storeBytes s.i 0 bytes s.mem).1 } :=
    ⟨hsp, storeBytes_wf s.i bytes 0 s.mem hmem, hrun⟩
  exact finish_inv hstored (storeBytes_possible s.i bytes 0 s.mem (by omega))

theorem loadRegs_inv {s : State} (h : s.inv) (base : Addr) (k n : Nat) : (loadRegs base k n s).1.inv := by
  rw [loadRegs_eq]
  exact h

theorem execLdVxMem_inv {s : State} (h : s.inv) (x : Reg) : Ensures (execLdVxMem x s) State.inv :=
  have hi := s.i.isLt
  finish_inv (loadRegs_inv h s.i 0 (x.toNat + 1)) (loadRegs_possible s.i (x.toNat + 1) 0 s (by omega))

theorem execDrw_inv {s : State} (h : s.inv) (x y : Reg) (n : Nibble) : Ensures (execDrw x y n s) State.inv := by
  have hi := s.i.isLt
  have hc := drawRows_possible s (s.getV x).toNat (s.getV y).toNat n.toNat 0 ⟨s.fb, false⟩ (by omega)
  unfold execDrw
  split
  · next d c hd =>
    rw [hd] at hc
    exact State.fail_inv (s := { s with fb := d.fb }) h (hc c rfl)
  · exact h

theorem execRet_inv {s : State} (h : s.inv) : Ensures (execRet s) State.inv := by
  rcases execRet_cases s with ⟨-, he⟩ | ⟨hne, hlt, he⟩ | ⟨-, he⟩ <;> rw [he]
  · exact State.fail_inv h rfl
  · obtain ⟨hsp, hmem, hrun⟩ := h
    refine ⟨?_, hmem, hrun⟩
    show (s.sp - 1).toNat ≤ 15
    bv_omega
  · trivial

theorem execCall_inv {s : State} (h : s.inv) (nnn : Imm12) : Ensures (execCall nnn s) State.inv := by
  rcases execCall_cases nnn s with ⟨-, he⟩ | ⟨hlt, he⟩ | ⟨-, he⟩ <;> rw [he]
  · exact State.fail_inv h rfl
  · obtain ⟨hsp, hmem, hrun⟩ := h
    refine ⟨?_, hmem, hrun⟩
    show (s.sp + 1).toNat ≤ 15
    bv_omega
  · trivial

theorem execLdF_inv {s : State} (h : s.inv) (x : Reg) : Ensures (execLdF x s) State.inv := by
  rcases execLdF_cases x s with ⟨-, he⟩ | ⟨hd, he⟩ <;> rw [he]
  · exact h
  · exact State.fail_inv h (decide_eq_true hd)

theorem keySkip_inv {s : State} (h : s.inv) {i : Instr} {x : Reg} (hi : i = .skp x ∨ i = .sknp x) :
    Ensures (exec i s) State.inv := by
  rcases keySkip_cases hi s with ⟨-, cond, he⟩ | ⟨hk, he⟩ <;> rw [he]
  · exact skipIf_inv h cond
  · exact State.fail_inv h (decide_eq_true hk)

/-- Every instruction keeps the invariant: one that writes neither SP, memory nor RUN has it by definition. -/
theorem exec_inv {s : State} (h : s.inv) (i : Instr) : Ensures (exec i s) State.inv := by
  cases i with
  | ret => exact execRet_inv h
  | call nnn => exact execCall_inv h nnn
  | seImm | sneImm | seReg | sneReg => exact skipIf_inv h _
  | drw x y n => exact execDrw_inv h x y n
  | skp x => exact keySkip_inv h (.inl rfl)
  | sknp x => exact keySkip_inv h (.inr rfl)
  | ldVxK x =>
    obtain ⟨hsp, hmem, -⟩ := h
    exact ⟨hsp, hmem, rfl⟩
  | ldF x => exact execLdF_inv h x
  | ldB x => exact storeAtI_inv h (bcdDigits (s.getV x))
  | ldMemVx x => exact storeAtI_inv h (s.regsUpTo x)
  | ldVxMem x => exact execLdVxMem_inv h x
  | _ => exact h

theorem pollKey_inv {s : State} (h : s.inv) (x : Reg) : (pollKey x s).inv := by
  rcases pollKey_cases x s with he | ⟨k, -, he⟩ <;> rw [he]
  · exact h
  · obtain ⟨hsp, hmem, -⟩ := h
    exact ⟨hsp, hmem, rfl⟩

theorem decrementTimers_inv {s : State} (h : s.inv) : (decrementTimers s).inv := by
  rcases decrementTimers_cases s with he | he <;> rw [he] <;> exact h

theorem advance_inv {s t : State} (h : s.inv) (ht : advance s = .next t) : t.inv := by
  rcases advance_cases ht with ⟨-, -, rfl⟩ | ⟨-, -, i, -, he⟩ | ⟨-, -, rfl⟩ | ⟨x, -, rfl⟩ | ⟨-, -, rfl⟩
  · exact State.fail_inv h rfl
  · exact (exec_inv (s := { s with pc := s.pc + 2 }) h i).of_eq_next he
  · exact h
  · exact pollKey_inv h x
  · exact h

/-- Settles O53: the invariant is kept by ticks, timer decrements and key changes, and taking an operation off the schedule does
not touch it. -/
theorem stepKeepsTheInvariant : Obligations.StepKeepsTheInvariant := by
  intro s t h ht
  have h' : State.inv { s with schedule := s.schedule.tail } := h
  rcases step_cases ht with ⟨-, ha⟩ | ⟨-, rfl⟩ | ⟨k, b, -, rfl⟩
  · exact advance_inv h' ha
  · exact decrementTimers_inv h'
  · exact h'

/-- Settles O54: SP is 0, memory is empty and RUN is Running. -/
theorem resetMeetsTheInvariant : Obligations.ResetMeetsTheInvariant :=
  ⟨Nat.zero_le 15, reset_mem_wf, rfl⟩

/-! ### The font and the bytes outside program space -/

/-- Outside program space a read depends on the font alone (R32, R53). -/
theorem State.readByte_outside_of_font {s t : State} (hf : t.font = s.font) {a : Addr} (ha : ¬ inProgramSpace a.toNat) :
    t.readByte a = s.readByte a := by
  simp only [State.readByte, if_neg ha, hf]

/-- No instruction lists a font byte among the parts it may write (R32). -/
theorem fontByte_notMem_mayWrite (i : Instr) (s : State) (k : Fin 80) : .fontByte k ∉ mayWrite i s := by
  cases i <;> simp [mayWrite]

theorem exec_font {i : Instr} {s t : State} (h : exec i s = .next t) : t.font = s.font :=
  have hframe := (exec_changesOnly i s).of_eq_next h
  Vector.ext fun k hk => hframe (.fontByte ⟨k, hk⟩) (fontByte_notMem_mayWrite i s _)

theorem advance_font {s t : State} (h : advance s = .next t) : t.font = s.font := by
  rcases advance_cases h with ⟨-, -, rfl⟩ | ⟨-, -, i, -, he⟩ | ⟨-, -, rfl⟩ | ⟨x, -, rfl⟩ | ⟨-, -, rfl⟩
  · rfl
  · exact exec_font (s := { s with pc := s.pc + 2 }) he
  · rfl
  · rcases pollKey_cases x s with hp | ⟨k, -, hp⟩ <;> simp only [hp, State.setV_font]
  · rfl

theorem step_font {s t : State} (h : step s = .next t) : t.font = s.font := by
  rcases step_cases h with ⟨-, ha⟩ | ⟨-, rfl⟩ | ⟨k, b, -, rfl⟩
  · exact advance_font (s := { s with schedule := s.schedule.tail }) ha
  · rcases decrementTimers_cases { s with schedule := s.schedule.tail } with hd | hd <;> rw [hd]
  · rfl

/-- Settles O57: no step writes the font, and outside program space there is nothing else to read. -/
theorem onlyProgramSpaceIsWritable : Obligations.OnlyProgramSpaceIsWritable := by
  intro s t h
  have hf := step_font h
  exact ⟨hf, fun a ha => State.readByte_outside_of_font hf (by omega)⟩

end Sys2Proof.Machine
end

section
/-! The state's remaining claims: the ROM's first fetch, a CALL with its RET, `set_pressed`, reset and the host's view of the
display (spec/10_state.md R26, R35, R36, R41; spec/60_exceptions.md R257, R264). -/

namespace Sys2Proof.Machine

/-! ### The ROM load -/

/-- A ROM load leaves PC. -/
@[simp] theorem load_pc (rom : List Byte) (s : State) : (load rom s).pc = s.pc := by
  rw [load, loadFrom_eq]

/-- A byte of the ROM below the ceiling reads back at its address (R264). -/
theorem readByte_load (rom : List Byte) (s : State) {k : Nat} (h : k < rom.length) (hk : k < 3584) :
    (load rom s).readByte (BitVec.ofNat 16 (0x200 + k)) = rom[k] := by
  have ha : (BitVec.ofNat 16 (0x200 + k)).toNat = 0x200 + k := by rw [BitVec.toNat_ofNat]; omega
  rw [State.readByte_inside _ (by rw [ha]; omega), ha, load, loadFrom_lookup, dif_pos (by omega)]
  simp

/-- Settles O19: PC is 0x200 and the two bytes read there are the ROM's first two. -/
theorem firstFetchIsTheRomsFirstWord : Obligations.FirstFetchIsTheRomsFirstWord := by
  intro hi lo rest _
  have hpc : (load (hi :: lo :: rest) State.reset).pc = 0x200 := load_pc _ _
  have hhi := readByte_load (hi :: lo :: rest) State.reset (k := 0) (by simp) (by omega)
  have hlo := readByte_load (hi :: lo :: rest) State.reset (k := 1) (by simp) (by omega)
  rcases fetch_cases (load (hi :: lo :: rest) State.reset) with ⟨-, hf⟩ | ⟨hout, -⟩
  · rw [hf, hpc]
    exact congrArg₂ (fun a b => Except.ok (wordOfBytes a b, _)) hhi hlo
  · rw [hpc] at hout
    exact absurd hout (by decide)

/-! ### CALL and RET -/

/-- Settles O32: RET finds in the entry CALL wrote the PC of before, and takes back CALL's increment of SP. -/
theorem returnResumesAfterTheCall : Obligations.ReturnResumesAfterTheCall := by
  intro s nnn a hsp
  have hnext : (s.sp + 1).toNat = s.sp.toNat + 1 := by bv_omega
  have hne : s.sp + 1 ≠ 0 := by bv_omega
  have hlt : (s.sp + 1).toNat < 16 := by omega
  refine ⟨_, _, execCall_of_lt nnn hsp, execRet_of_lt hne hlt, ?_, ?_⟩
  · show (s.stack.set (s.sp.toNat + 1) s.pc)[(s.sp + 1).toNat] = s.pc
    simp only [hnext, Vector.getElem_set_self]
  · exact BitVec.add_sub_cancel s.sp 1

/-- Settles O31: above 15 both instructions reach the model's own stop. -/
theorem stackPointerAboveFifteenStops : Obligations.StackPointerAboveFifteenStops := by
  intro s nnn hsp
  exact ⟨execRet_of_gt hsp, execCall_of_gt nnn hsp⟩

/-! ### Keys -/

/-- A key's level after `set_pressed`, of the key set or of another (R257). -/
@[simp] theorem isPressed_setPressed (s : State) (k j : Nibble) (b : Bool) :
    (setPressed k b s).isPressed j = if k = j then b else s.isPressed j := by
  simp [State.isPressed, setPressed, Vector.getElem_set, BitVec.toNat_inj]

theorem setPressed_changesOnly (s : State) (k : Nibble) (b : Bool) : s.changesOnly (setPressed k b s) {.key k} := by
  intro p hp
  cases p with
  | key j =>
    have hne : k ≠ j := fun e => hp (congrArg Part.key e.symm)
    simp [State.sameAt, hne]
  | _ => rfl

/-- Settles O17: the key array is written at one code and no other field is. -/
theorem setPressedSetsOneKey : Obligations.SetPressedSetsOneKey := by
  intro s k b
  exact ⟨by simp, setPressed_changesOnly s k b⟩

/-! ### Reset -/

@[simp] theorem getV_reset (x : Reg) : State.reset.getV x = 0 := by
  simp [State.getV, State.reset]

@[simp] theorem isPressed_reset (k : Nibble) : State.reset.isPressed k = false := by
  simp [State.isPressed, State.reset]

/-- Past the font every byte of the reset state reads zero, in program space because nothing is listed there. -/
theorem readByte_reset {a : Addr} (ha : 80 ≤ a.toNat) : State.reset.readByte a = 0 := by
  rw [State.readByte, dif_neg (by omega)]
  split <;> rfl

/-- Settles O20: every part of the reset state, read through its accessor. -/
theorem resetState : Obligations.ResetState := by
  refine ⟨rfl, rfl, getV_reset, rfl, rfl, fun k => ?_, rfl, rfl, fun a => readByte_reset, clearDisplay_pixel, isPressed_reset⟩
  exact Vector.getElem_replicate k.isLt

/-! ### The host's view of the display -/

theorem wrapX_rowMajor (x : Fin 64) (y : Nat) : wrapX (y * 64 + x.val) = x :=
  Fin.ext (by simp only [wrapX]; omega)

theorem wrapY_rowMajor (x : Fin 64) (y : Fin 32) : wrapY ((y.val * 64 + x.val) / 64) = y :=
  Fin.ext (by simp only [wrapY]; omega)

/-- Settles O28: element `y * 64 + x` is computed from column x and row y. -/
theorem displayBufferIsRowMajor : Obligations.DisplayBufferIsRowMajor := by
  intro Colour colourOn colourOff s x y h
  rw [displayBuffer, Vector.getElem_ofFn, wrapX_rowMajor, wrapY_rowMajor]

end Sys2Proof.Machine
end

section
/-! The memory's claims: what a read and a write do by region, what a ROM load leaves, a store that is fetched again and the
glyph address (spec/20_memory.md R53 to R72; spec/44_index_memory.md R202, R204; spec/60_exceptions.md R264). -/

namespace Sys2Proof.Machine

/-! ### Reads by region (R53) -/

theorem State.readByte_font (s : State) {a : Addr} (h : a.toNat < 80) : s.readByte a = s.font[a.toNat] :=
  dif_pos h

/-- Past the font and outside program space a read is zero: the gap, and all from 0x1000 up. -/
theorem State.readByte_unmapped (s : State) {a : Addr} (hfont : 80 ≤ a.toNat) (hout : ¬ inProgramSpace a.toNat) :
    s.readByte a = 0 := by
  rw [State.readByte, dif_neg (by omega), if_neg hout]

/-- Settles O21: the four regions, the gap and the addresses from 0x1000 up being the two that are not mapped. -/
theorem readByteIsTotalByRegion : Obligations.ReadByteIsTotalByRegion := by
  intro s a
  refine ⟨s.readByte_font, fun hlo hhi => ?_, fun hlo hhi => s.readByte_inside ⟨hlo, hhi⟩, fun hlo => ?_⟩
  · exact s.readByte_unmapped hlo (by omega)
  · exact s.readByte_unmapped (by omega) (by omega)

/-- Settles O22: a write in program space is `Memory.store`, whose reads are known; any other is refused. -/
theorem writeByteOnlyInProgramSpace : Obligations.WriteByteOnlyInProgramSpace := by
  intro s a b
  rcases writeByte_cases s.mem a b with ⟨hin, hw⟩ | ⟨hout, hw⟩
  · exact ⟨fun _ _ => ⟨_, hw, s.readByte_store hin b⟩, fun h => by omega⟩
  · exact ⟨fun hlo hhi => absurd ⟨hlo, hhi⟩ hout, fun _ => hw⟩

/-! ### The ROM load (R264) -/

/-- A ROM load keeps RUN up to 3584 bytes, and faults at the ceiling above. -/
theorem load_run (rom : List Byte) (s : State) :
    (load rom s).run = if rom.length ≤ 3584 then s.run else .faulted (.romOverrun 0x1000) := by
  rw [load, loadFrom_run rom 0 s (by omega), Nat.zero_add]

/-- The addresses a ROM load does not reach read as before. -/
theorem readByte_load_mem_of_not_reached (rom : List Byte) (s : State) {a : Addr}
    (h : ¬ (0x200 ≤ a.toNat ∧ a.toNat < 0x200 + rom.length ∧ a.toNat ≤ 0xFFF)) :
    State.readByte { s with mem := (load rom s).mem } a = s.readByte a := by
  by_cases hin : inProgramSpace a.toNat
  · rw [State.readByte_inside _ hin, State.readByte_inside _ hin, load, loadFrom_lookup, dif_neg h]
  · exact s.readByte_outside _ hin

/-- A ROM load changes RUN and the bytes it reaches. -/
theorem load_changesOnly (rom : List Byte) (s : State) : s.changesOnly (load rom s)
    ({.run} ∪ {p | ∃ a : Addr, 0x200 ≤ a.toNat ∧ a.toNat < 0x200 + rom.length ∧ a.toNat ≤ 0xFFF ∧ p = .byte a}) := by
  have heq : load rom s = { s with mem := (load rom s).mem, run := (load rom s).run } := loadFrom_eq rom 0 s
  rw [heq, Set.union_comm]
  refine State.changesOnly.union (s.setMem_changesOnly (load rom s).mem fun a ha => ?_) (State.setRun_changesOnly _ _)
  exact readByte_load_mem_of_not_reached rom s fun ⟨hlo, hlen, hhi⟩ => ha ⟨a, hlo, hlen, hhi, rfl⟩

/-- Settles O18: the copied bytes, RUN at both lengths, and the frame. -/
theorem romLoadCopiesFromLoadAddress : Obligations.RomLoadCopiesFromLoadAddress := by
  intro rom s
  refine ⟨fun k h hk => readByte_load rom s h hk, fun hle => ?_, fun hgt => ?_, load_changesOnly rom s⟩
  · rw [load_run, if_pos hle]
  · rw [load_run, if_neg (by omega)]

/-! ### A store that is fetched again (R69, R204) -/

theorem fetch_of_le {s : State} (h : s.pc.toNat ≤ 0xFFFD) :
    fetch s = .ok (wordOfBytes (s.readByte s.pc) (s.readByte (s.pc + 1)), { s with pc := s.pc + 2 }) := by
  rcases fetch_cases s with ⟨-, hf⟩ | ⟨hgt, -⟩
  · exact hf
  · omega

/-- Everything Fx55 does inside program space: V0 to Vx stand at I and up, and memory is the only field written (R204). -/
theorem exec_ldMemVx_spec (s : State) (x : Reg) (hlo : 0x200 ≤ s.i.toNat) (hhi : s.i.toNat + x.toNat ≤ 0xFFF) :
    ∃ m, exec (.ldMemVx x) s = .next { s with mem := m } ∧
      (∀ k : Reg, k.toNat ≤ x.toNat → State.readByte { s with mem := m } (s.i + BitVec.ofNat 16 k.toNat) = s.getV k) ∧
      (∀ a : Addr, ¬ (s.i.toNat ≤ a.toNat ∧ a.toNat ≤ s.i.toNat + x.toNat) →
        State.readByte { s with mem := m } a = s.readByte a) := by
  have hlen := s.regsUpTo_length x
  obtain ⟨m, hm, hread, hframe⟩ := storeAtI_spec s (s.regsUpTo x) hlo (by omega)
  refine ⟨m, hm, fun k hk => ?_, fun a ha => hframe a (by omega)⟩
  rw [hread k.toNat (by omega), State.regsUpTo_getElem]

/-- Settles O23: the fetch reads V0 and V1 back from I and I + 1. -/
theorem storedBytesAreFetched : Obligations.StoredBytesAreFetched := by
  intro s x hx hlo hhi
  obtain ⟨m, hm, hread, -⟩ := exec_ldMemVx_spec s x hlo hhi
  have h0 : State.readByte { s with mem := m } s.i = s.getV 0 := by
    simpa using hread 0 (Nat.zero_le _)
  have h1 : State.readByte { s with mem := m } (s.i + 1) = s.getV 1 := hread 1 hx
  have hpc : s.i.toNat ≤ 0xFFFD := by omega
  refine ⟨_, hm, ?_⟩
  rw [fetch_of_le (s := { s with mem := m, pc := s.i }) hpc]
  exact congrArg₂ (fun hi lo => Except.ok (wordOfBytes hi lo, _)) h0 h1

/-! ### The glyph address (R58, R202) -/

/-- A number is the word of an instruction when it is the number of a format XKK or X word that decodes to it (R82, R84). -/
theorem isWordOf_of_wordXKK {a : Nibble} {x : Reg} {kk : Byte} {w : Nat} {i : Instr}
    (hw : w = 0x1000 * a.toNat + 0x100 * x.toNat + kk.toNat) (hi : decodeWord (wordXKK a x kk) = .ok i) : isWordOf w i := by
  rw [isWordOf, hw, wordXKK_eq_ofNat, hi]

/-- A format X word with leading nibble F is decoded by its function byte (R84 rows 26 to 34). -/
theorem decodeWord_wordXKK_F (x : Reg) (kk : Byte) : decodeWord (wordXKK 0xF x kk) = decodeMisc (wordXKK 0xF x kk) := by
  rw [decodeWord, fieldA_wordXKK]
  rfl

theorem isWordOf_ldF (x : Reg) : isWordOf (0xF029 + 0x100 * x.toNat) (.ldF x) := by
  refine isWordOf_of_wordXKK (a := 0xF) (x := x) (kk := 0x29) (by simp; omega) ?_
  rw [decodeWord_wordXKK_F, decodeMisc, fieldKK_wordXKK, fieldX_wordXKK]
  rfl

/-- Settles O43: a digit's glyph starts at five times the digit, and no product up to 0xF * 5 wraps. -/
theorem indexPointsAtTheGlyph : Obligations.IndexPointsAtTheGlyph := by
  intro s x
  refine ⟨isWordOf_ldF x, fun hle => ?_, fun hgt => ?_⟩
  · rcases execLdF_cases x s with ⟨-, h⟩ | ⟨hgt, -⟩
    · refine ⟨_, h, ?_, s.setI_changesOnly _⟩
      show (BitVec.ofNat 16 ((s.getV x).toNat * 5)).toNat = _
      rw [BitVec.toNat_ofNat]
      omega
    · omega
  · rcases execLdF_cases x s with ⟨hle, -⟩ | ⟨-, h⟩
    · omega
    · exact h

end Sys2Proof.Machine
end

section
/-! The decoder held against the encoder, in both directions (spec/30_encoding.md R80 to R88). -/

namespace Sys2Proof

/-! ### Decoding an encoded instruction (R80, R84) -/

/-- The word of an instruction decodes to it: the fields of an assembled word select the instruction's arm and give its operands
back. The cases are the formats of R82, cut by the function decoder that reads them. -/
theorem decodeWord_encodeWord (i : Instr) : decodeWord (encodeWord i) = .ok i := by
  cases i with
  | cls | ret => rfl
  | jp | call | ldI | jpV0 => simp [encodeWord, decodeWord]
  | seImm | sneImm | ldImm | addImm | rnd => simp [encodeWord, decodeWord]
  | drw => simp [encodeWord, decodeWord]
  | seReg | sneReg => simp [encodeWord, decodeWord]
  | ldReg | orReg | andReg | xorReg | addReg | subReg | shr | subnReg | shl => simp [encodeWord, decodeWord, decodeAlu]
  | skp | sknp => simp [encodeWord, decodeWord, decodeKey]
  | ldVxDT | ldVxK | ldDTVx | ldSTVx | addI | ldF | ldB | ldMemVx | ldVxMem => simp [encodeWord, decodeWord, decodeMisc]

/-- Settles O1: the two bytes are put together to the instruction's word, and that decodes to the instruction. -/
theorem decodeInvertsEncode : Obligations.DecodeInvertsEncode := by
  intro i rest
  simp only [encode, List.cons_append, List.nil_append, decode, wordOfBytes_hi_lo, decodeWord_encodeWord]

/-! ### The bits an instruction is read from (R88) -/

/-- The bits of a word that an instruction is read from: all of them, but for the y of 8xy6 and 8xyE (R88). -/
def Instr.readMask : Instr → Word
  | .shr _ => 0xFF0F
  | .shl _ => 0xFF0F
  | _ => 0xFFFF

theorem Instr.readMask_of_not_shift {i : Instr} (h : ∀ x, i ≠ .shr x ∧ i ≠ .shl x) : i.readMask = 0xFFFF := by
  cases i with
  | shr x =>
    obtain ⟨hshr, -⟩ := h x
    exact absurd rfl hshr
  | shl x =>
    obtain ⟨-, hshl⟩ := h x
    exact absurd rfl hshl
  | _ => rfl

theorem and_maskFFFF (w : Word) : w &&& 0xFFFF = w := BitVec.and_allOnes

/-- A word read whole in format NNN. -/
theorem and_maskFFFF_eq_wordNNN {w : Word} {a : Nibble} (hA : (fieldA w).toNat = a.toNat) :
    w &&& 0xFFFF = wordNNN a (fieldNNN w) := by
  rw [and_maskFFFF, ← BitVec.eq_of_toNat_eq hA, wordNNN_fields]

/-- A word read whole in format XKK or X. -/
theorem and_maskFFFF_eq_wordXKK {w : Word} {a : Nibble} {kk : Byte} (hA : (fieldA w).toNat = a.toNat)
    (hK : (fieldKK w).toNat = kk.toNat) : w &&& 0xFFFF = wordXKK a (fieldX w) kk := by
  rw [and_maskFFFF, ← BitVec.eq_of_toNat_eq hA, ← BitVec.eq_of_toNat_eq hK, wordXKK_fields]

/-- A word read whole in format XY or XYN. -/
theorem and_maskFFFF_eq_wordXYN {w : Word} {a n : Nibble} (hA : (fieldA w).toNat = a.toNat)
    (hN : (fieldN w).toNat = n.toNat) : w &&& 0xFFFF = wordXYN a (fieldX w) (fieldY w) n := by
  rw [and_maskFFFF, ← BitVec.eq_of_toNat_eq hA, ← BitVec.eq_of_toNat_eq hN, wordXYN_fields]

/-- A word of format XY read without its y. -/
theorem and_maskFF0F_eq_wordXYN {w : Word} {a n : Nibble} (hA : (fieldA w).toNat = a.toNat)
    (hN : (fieldN w).toNat = n.toNat) : w &&& 0xFF0F = wordXYN a (fieldX w) 0 n := by
  rw [and_maskFF0F, BitVec.eq_of_toNat_eq hA, BitVec.eq_of_toNat_eq hN]

theorem and_readMask_of_decodeFixed {w : Word} {i : Instr} (h : decodeFixed w = .ok i) : w &&& i.readMask = encodeWord i := by
  unfold decodeFixed at h
  split at h <;> cases h
  all_goals
    next hw => exact (and_maskFFFF w).trans (BitVec.eq_of_toNat_eq hw)

theorem and_readMask_of_decodeAlu {w : Word} {i : Instr} (hA : (fieldA w).toNat = 0x8) (h : decodeAlu w = .ok i) :
    w &&& i.readMask = encodeWord i := by
  unfold decodeAlu at h
  split at h <;> cases h
  case h_7 hN | h_9 hN => exact and_maskFF0F_eq_wordXYN hA hN
  all_goals
    next hN => exact and_maskFFFF_eq_wordXYN hA hN

theorem and_readMask_of_decodeKey {w : Word} {i : Instr} (hA : (fieldA w).toNat = 0xE) (h : decodeKey w = .ok i) :
    w &&& i.readMask = encodeWord i := by
  unfold decodeKey at h
  split at h <;> cases h
  all_goals
    next hK => exact and_maskFFFF_eq_wordXKK hA hK

theorem and_readMask_of_decodeMisc {w : Word} {i : Instr} (hA : (fieldA w).toNat = 0xF) (h : decodeMisc w = .ok i) :
    w &&& i.readMask = encodeWord i := by
  unfold decodeMisc at h
  split at h <;> cases h
  all_goals
    next hK => exact and_maskFFFF_eq_wordXKK hA hK

/-- What a word decodes to is read from all its bits, or from all but y (R84, R88). -/
theorem and_readMask_of_decodeWord {w : Word} {i : Instr} (h : decodeWord w = .ok i) : w &&& i.readMask = encodeWord i := by
  unfold decodeWord at h
  split at h
  case h_1 => exact and_readMask_of_decodeFixed h
  case h_2 hA | h_3 hA | h_11 hA | h_12 hA => cases h; exact and_maskFFFF_eq_wordNNN hA
  case h_4 hA | h_5 hA | h_7 hA | h_8 hA | h_13 hA => cases h; exact and_maskFFFF_eq_wordXKK hA rfl
  case h_6 hA | h_10 hA =>
    split at h <;> cases h
    next hN => exact and_maskFFFF_eq_wordXYN hA (congrArg BitVec.toNat hN)
  case h_9 hA => exact and_readMask_of_decodeAlu hA h
  case h_14 hA => cases h; exact and_maskFFFF_eq_wordXYN hA rfl
  case h_15 hA => exact and_readMask_of_decodeKey hA h
  case h_16 hA => exact and_readMask_of_decodeMisc hA h
  case h_17 => cases h

/-- A word that agrees but for y with an ALU word is an ALU word with the same x and function nibble (R82, R88). -/
theorem decodeWord_eq_decodeAlu_of_and_maskFF0F {w : Word} {x : Reg} {n : Nibble} (h : w &&& 0xFF0F = wordXYN 0x8 x 0 n) :
    decodeWord w = decodeAlu w ∧ fieldX w = x ∧ fieldN w = n := by
  rw [and_maskFF0F] at h
  obtain ⟨hA, hX, -, hN⟩ := wordXYN_inj h
  exact ⟨by rw [decodeWord, hA]; rfl, hX, hN⟩

/-- A word decodes to an instruction exactly when the bits the instruction is read from are those of its own word. -/
theorem decodeWord_eq_ok_iff {w : Word} {i : Instr} : decodeWord w = .ok i ↔ w &&& i.readMask = encodeWord i := by
  refine ⟨and_readMask_of_decodeWord, fun h => ?_⟩
  cases i with
  | shr x | shl x =>
    obtain ⟨hdec, hX, hN⟩ := decodeWord_eq_decodeAlu_of_and_maskFF0F h
    rw [hdec, decodeAlu, hX, hN]
    rfl
  | _ =>
    have hw := (and_maskFFFF w).symm.trans h
    rw [hw, decodeWord_encodeWord]

/-- Settles O2: the mask of `decodeWord_eq_ok_iff` clears the y of the two shifts and no other bit. -/
theorem encodeInvertsDecode : Obligations.EncodeInvertsDecode := by
  intro w i h
  have hmask := decodeWord_eq_ok_iff.mp h
  refine ⟨fun hi => ?_, fun x hi => ?_⟩
  · rw [Instr.readMask_of_not_shift hi, and_maskFFFF] at hmask
    exact hmask.symm
  · have hread : i.readMask = 0xFF0F := by rcases hi with rfl | rfl <;> rfl
    rw [hread] at hmask
    refine ⟨hmask.symm, fun w' hw' => decodeWord_eq_ok_iff.mpr ?_⟩
    rw [hread, hw', hmask]

end Sys2Proof
end

section
/-! The opcode map and the list of unrecognised words held against the decoder (spec/30_encoding.md R84 to R86). -/

namespace Sys2Proof

/-! ### The opcode map (R84, R85) -/

/-- The word of every instruction matches the instruction's row. -/
theorem encodedRow : ∀ i : Instr, i.row.accepts (encodeWord i) = true
  | .cls => Laws.EncodedRow.cls
  | .ret => Laws.EncodedRow.ret
  | .jp nnn => Laws.EncodedRow.jp nnn
  | .call nnn => Laws.EncodedRow.call nnn
  | .seImm x kk => Laws.EncodedRow.seImm x kk
  | .sneImm x kk => Laws.EncodedRow.sneImm x kk
  | .seReg x y => Laws.EncodedRow.seReg x y
  | .ldImm x kk => Laws.EncodedRow.ldImm x kk
  | .addImm x kk => Laws.EncodedRow.addImm x kk
  | .ldReg x y => Laws.EncodedRow.ldReg x y
  | .orReg x y => Laws.EncodedRow.orReg x y
  | .andReg x y => Laws.EncodedRow.andReg x y
  | .xorReg x y => Laws.EncodedRow.xorReg x y
  | .addReg x y => Laws.EncodedRow.addReg x y
  | .subReg x y => Laws.EncodedRow.subReg x y
  | .shr x => Laws.EncodedRow.shr x
  | .subnReg x y => Laws.EncodedRow.subnReg x y
  | .shl x => Laws.EncodedRow.shl x
  | .sneReg x y => Laws.EncodedRow.sneReg x y
  | .ldI nnn => Laws.EncodedRow.ldI nnn
  | .jpV0 nnn => Laws.EncodedRow.jpV0 nnn
  | .rnd x kk => Laws.EncodedRow.rnd x kk
  | .drw x y n => Laws.EncodedRow.drw x y n
  | .skp x => Laws.EncodedRow.skp x
  | .sknp x => Laws.EncodedRow.sknp x
  | .ldVxDT x => Laws.EncodedRow.ldVxDT x
  | .ldVxK x => Laws.EncodedRow.ldVxK x
  | .ldDTVx x => Laws.EncodedRow.ldDTVx x
  | .ldSTVx x => Laws.EncodedRow.ldSTVx x
  | .addI x => Laws.EncodedRow.addI x
  | .ldF x => Laws.EncodedRow.ldF x
  | .ldB x => Laws.EncodedRow.ldB x
  | .ldMemVx x => Laws.EncodedRow.ldMemVx x
  | .ldVxMem x => Laws.EncodedRow.ldVxMem x

theorem Instr.row_mem_opcodeTable (i : Instr) : i.row ∈ opcodeTable := by
  cases i <;> simp only [Instr.row] <;> decide

/-- An instruction is read from every bit its row fixes. -/
theorem Instr.readMask_and_row_mask (i : Instr) : i.readMask &&& i.row.mask = i.row.mask := by
  cases i <;> simp only [Instr.readMask, Instr.row] <;> decide

/-- Every row fixes the leading nibble. -/
theorem Instr.fieldA_row_mask (i : Instr) : fieldA i.row.mask = 0xF := by
  cases i <;> simp only [Instr.row] <;> decide

/-- A word that decodes matches its instruction's row: on the bits of the row's mask it is the instruction's own word. -/
theorem row_accepts_of_decodeWord {w : Word} {i : Instr} (h : decodeWord w = .ok i) : i.row.accepts w = true := by
  have hrow := beq_iff_eq.mp (encodedRow i)
  rw [← decodeWord_eq_ok_iff.mp h, BitVec.and_assoc, i.readMask_and_row_mask] at hrow
  exact beq_iff_eq.mpr hrow

theorem wordWellFormed_of_decodeWord {w : Word} {i : Instr} (h : decodeWord w = .ok i) : wordWellFormed w = true :=
  List.any_eq_true.mpr ⟨i.row, i.row_mem_opcodeTable, row_accepts_of_decodeWord h⟩

/-- Words that agree under a mask agree in every field the mask covers. -/
theorem extractLsb'_eq_of_and_eq {w w' m : Word} {start len : Nat} (h : w &&& m = w' &&& m)
    (hm : m.extractLsb' start len = BitVec.allOnes len) : w.extractLsb' start len = w'.extractLsb' start len := by
  have hfield := congrArg (BitVec.extractLsb' start len) h
  simpa only [BitVec.extractLsb'_and, hm, BitVec.and_allOnes] using hfield

/-- A word that matches an instruction's row decodes to an instruction of that row: it has the leading nibble, and where the row
fixes them the function nibble and the function byte, of the instruction's own word, and the decoder dispatches on these alone. -/
theorem exists_decodeWord_of_row_accepts {w : Word} {i : Instr} (h : i.row.accepts w = true) :
    ∃ j, decodeWord w = .ok j ∧ j.row = i.row := by
  have hmask : w &&& i.row.mask = encodeWord i &&& i.row.mask := (beq_iff_eq.mp h).trans (beq_iff_eq.mp (encodedRow i)).symm
  have hA : fieldA w = fieldA (encodeWord i) := extractLsb'_eq_of_and_eq hmask i.fieldA_row_mask
  have hN (hm : fieldN i.row.mask = 0xF) : fieldN w = fieldN (encodeWord i) := extractLsb'_eq_of_and_eq hmask hm
  have hK (hm : fieldKK i.row.mask = 0xFF) : fieldKK w = fieldKK (encodeWord i) := extractLsb'_eq_of_and_eq hmask hm
  cases i with
  | cls | ret =>
    have hw := (and_maskFFFF w).symm.trans (beq_iff_eq.mp h)
    rw [hw]
    exact ⟨_, rfl, rfl⟩
  | jp | call | ldI | jpV0 => simp [decodeWord, hA, encodeWord, Instr.row]
  | seImm | sneImm | ldImm | addImm | rnd => simp [decodeWord, hA, encodeWord, Instr.row]
  | drw => simp [decodeWord, hA, encodeWord, Instr.row]
  | seReg | sneReg => simp [decodeWord, hA, hN (by simp only [Instr.row]; decide), encodeWord, Instr.row]
  | ldReg | orReg | andReg | xorReg | addReg | subReg | shr | subnReg | shl =>
    simp [decodeWord, decodeAlu, hA, hN (by simp only [Instr.row]; decide), encodeWord, Instr.row]
  | skp | sknp => simp [decodeWord, decodeKey, hA, hK (by simp only [Instr.row]; decide), encodeWord, Instr.row]
  | ldVxDT | ldVxK | ldDTVx | ldSTVx | addI | ldF | ldB | ldMemVx | ldVxMem =>
    simp [decodeWord, decodeMisc, hA, hK (by simp only [Instr.row]; decide), encodeWord, Instr.row]

/-- Settles O3: every row of the map is the row of an instruction, and each direction is a fact about an instruction's row. -/
theorem decodeFollowsOpcodeMap : Obligations.DecodeFollowsOpcodeMap := by
  refine ⟨rfl, fun w i h => ⟨i.row_mem_opcodeTable, row_accepts_of_decodeWord h⟩, fun w r hr hacc => ?_⟩
  obtain ⟨i, -, rfl⟩ := List.mem_map.mp hr
  exact exists_decodeWord_of_row_accepts hacc

/-- Settles O4, by the finite check over the pairs of the 34 rows. -/
theorem opcodeRowsAreDisjoint : Obligations.OpcodeRowsAreDisjoint := by
  unfold Obligations.OpcodeRowsAreDisjoint
  decide

/-- Settles O6, by running the decoder on each of the ten words. -/
theorem sampleWordsDecode : Obligations.SampleWordsDecode := by
  unfold Obligations.SampleWordsDecode isWordOf
  decide

/-! ### The unrecognised words (R86) -/

theorem fieldA_toNat (w : Word) : (fieldA w).toNat = w.toNat / 0x1000 := by
  have := w.isLt
  simp only [fieldA, BitVec.extractLsb'_toNat, Nat.shiftRight_eq_div_pow]
  omega

theorem fieldN_toNat (w : Word) : (fieldN w).toNat = w.toNat % 0x10 := by
  simp [fieldN]

theorem fieldKK_toNat (w : Word) : (fieldKK w).toNat = w.toNat % 0x100 := by
  simp [fieldKK]

/-- The fixed words refuse all but two. -/
theorem decodeFixed_eq_error_iff {w : Word} :
    decodeFixed w = .error (.unknownOpcode w) ↔ w.toNat ∉ [0x00E0, 0x00EE] := by
  unfold decodeFixed
  split <;> simp_all

/-- The ALU group refuses the function nibbles between 7 and E, and F. -/
theorem decodeAlu_eq_error_iff {w : Word} :
    decodeAlu w = .error (.unknownOpcode w) ↔ (fieldN w).toNat ∈ [0x8, 0x9, 0xA, 0xB, 0xC, 0xD, 0xF] := by
  have := (fieldN w).isLt
  unfold decodeAlu
  split <;> simp_all
  omega

/-- The key group refuses all function bytes but two. -/
theorem decodeKey_eq_error_iff {w : Word} : decodeKey w = .error (.unknownOpcode w) ↔ (fieldKK w).toNat ∉ [0x9E, 0xA1] := by
  unfold decodeKey
  split <;> simp_all

/-- The group of leading nibble F refuses all function bytes but nine. -/
theorem decodeMisc_eq_error_iff {w : Word} : decodeMisc w = .error (.unknownOpcode w) ↔
    (fieldKK w).toNat ∉ [0x07, 0x0A, 0x15, 0x18, 0x1E, 0x29, 0x33, 0x55, 0x65] := by
  unfold decodeMisc
  split <;> simp_all

/-- Settles O5: the leading nibble chooses the group, and each group's refused words are known; ten leading nibbles refuse none. -/
theorem unrecognisedWordsAreTheListed : Obligations.UnrecognisedWordsAreTheListed := by
  intro w
  rw [← fieldA_toNat, ← fieldN_toNat, ← fieldKK_toNat]
  have hlt := (fieldA w).isLt
  unfold decodeWord
  split
  case h_1 hA => simp [hA, decodeFixed_eq_error_iff]
  case h_6 hA | h_10 hA => simp [hA, BitVec.toNat_eq]
  case h_9 hA => simp [hA, decodeAlu_eq_error_iff]
  case h_15 hA => simp [hA, decodeKey_eq_error_iff]
  case h_16 hA => simp [hA, decodeMisc_eq_error_iff]
  case h_17 =>
    exfalso
    simp only [imp_false] at *
    omega
  all_goals
    next hA => simp [hA]

/-! ### Words as numbers -/

/-- A number is the word of an instruction when it is the number of a format XY or XYN word that decodes to it (R82, R84). -/
theorem isWordOf_of_wordXYN {a : Nibble} {x y : Reg} {n : Nibble} {w : Nat} {i : Instr}
    (hw : w = 0x1000 * a.toNat + 0x100 * x.toNat + 0x10 * y.toNat + n.toNat) (hi : decodeWord (wordXYN a x y n) = .ok i) :
    isWordOf w i := by
  rw [isWordOf, hw, wordXYN_eq_ofNat, hi]

end Sys2Proof
end

section
/-! What decoding means for a tick: a running tick over an unrecognised word, the shifts from a word with any y, and that every
step answers (spec/30_encoding.md R86 to R88; spec/40_step_cycle.md R106; spec/60_exceptions.md R241). -/

namespace Sys2Proof.Machine

/-! ### An unrecognised word (R86, R106) -/

/-- A word that matches no row does not decode. -/
theorem executeWord_of_not_wellFormed {w : Word} (h : wordWellFormed w = false) (s : State) :
    executeWord w s = .next (s.emit (.unknownOpcode w)) := by
  rcases executeWord_cases w s with ⟨i, hd, -⟩ | ⟨e, -, he⟩
  · rw [wordWellFormed_of_decodeWord hd] at h
    cases h
  · exact he

/-- An event on the diagnostic output changes the record alone (R246). -/
theorem State.emit_changesOnly (s : State) (d : Diagnostic) : s.changesOnly (s.emit d) {.diagnostics} := by
  intro p hp
  cases p with
  | diagnostics => simp at hp
  | _ => rfl

/-- Settles O9: the tick advances PC in the fetch and then only emits. -/
theorem unrecognisedWordIsNoOp : Obligations.UnrecognisedWordIsNoOp := by
  intro s hrun hpc hword
  refine ⟨_, ?_, rfl, rfl, (s.setPc_changesOnly _).union (State.emit_changesOnly _ _)⟩
  rw [advance_of_fetched hrun hpc, executeWord_of_not_wellFormed hword]

/-! ### The shifts (R88, R180, R182) -/

theorem isWordOf_shr (x y : Reg) : isWordOf (0x8006 + 0x100 * x.toNat + 0x10 * y.toNat) (.shr x) := by
  refine isWordOf_of_wordXYN (a := 0x8) (x := x) (y := y) (n := 0x6) (by simp; omega) ?_
  rw [decodeWord_eq_ok_iff, Instr.readMask, and_maskFF0F]
  simp [encodeWord]

theorem isWordOf_shl (x y : Reg) : isWordOf (0x800E + 0x100 * x.toNat + 0x10 * y.toNat) (.shl x) := by
  refine isWordOf_of_wordXYN (a := 0x8) (x := x) (y := y) (n := 0xE) (by simp; omega) ?_
  rw [decodeWord_eq_ok_iff, Instr.readMask, and_maskFF0F]
  simp [encodeWord]

/-- The flag of 8xy6 is the lowest bit of the value before the shift. -/
theorem flagByte_bitShiftedRight_toNat (b : Byte) : (flagByte (bitShiftedRight b)).toNat = b.toNat % 2 := by
  rcases Nat.mod_two_eq_zero_or_one b.toNat with h | h <;> simp [flagByte, bitShiftedRight, BitVec.getLsbD, Nat.testBit_zero, h]

/-- The flag of 8xyE is the highest bit of the value before the shift. -/
theorem flagByte_bitShiftedLeft_toNat (b : Byte) : (flagByte (bitShiftedLeft b)).toNat = b.toNat / 128 := by
  have := b.isLt
  rcases (show b.toNat / 128 = 0 ∨ b.toNat / 128 = 1 by omega) with h | h <;>
    simp [flagByte, bitShiftedLeft, BitVec.getLsbD, Nat.testBit_eq_decide_div_mod_eq, h]

theorem flagByte_shiftRight (f : Bool) : flagByte f >>> 1 = 0 := by
  cases f <;> rfl

theorem flagByte_shiftLeft_toNat (f : Bool) : (flagByte f <<< 1).toNat = 2 * (flagByte f).toNat := by
  cases f <;> rfl

/-- Everything 8xy6 does (R171, R180). -/
theorem exec_shr_spec (s : State) (x : Reg) :
    ∃ t, exec (.shr x) s = .next t ∧ s.changesOnly t {.reg x, .reg 0xF} ∧
      (x ≠ 0xF → (t.getV x).toNat = (s.getV x).toNat / 2 ∧ (t.getV 0xF).toNat = (s.getV x).toNat % 2) ∧
      (x = 0xF → t.getV 0xF = 0) := by
  obtain ⟨hx, hflag, hvf, hframe⟩ := s.flagThenShift_spec x (bitShiftedRight (s.getV x)) (· >>> 1)
  refine ⟨_, rfl, hframe, fun hne => ⟨?_, ?_⟩, fun he => ?_⟩
  · rw [hx hne, BitVec.toNat_ushiftRight, Nat.shiftRight_one]
  · rw [hflag hne, flagByte_bitShiftedRight_toNat]
  · rw [hvf he, flagByte_shiftRight]

/-- Everything 8xyE does (R171, R182). -/
theorem exec_shl_spec (s : State) (x : Reg) :
    ∃ t, exec (.shl x) s = .next t ∧ s.changesOnly t {.reg x, .reg 0xF} ∧
      (x ≠ 0xF → (t.getV x).toNat = (s.getV x).toNat * 2 % 256 ∧ (t.getV 0xF).toNat = (s.getV x).toNat / 128) ∧
      (x = 0xF → (t.getV 0xF).toNat = 2 * ((s.getV 0xF).toNat / 128)) := by
  obtain ⟨hx, hflag, hvf, hframe⟩ := s.flagThenShift_spec x (bitShiftedLeft (s.getV x)) (· <<< 1)
  refine ⟨_, rfl, hframe, fun hne => ⟨?_, ?_⟩, fun he => ?_⟩
  · rw [hx hne, BitVec.toNat_shiftLeft, Nat.shiftLeft_eq, pow_one]
  · rw [hflag hne, flagByte_bitShiftedLeft_toNat]
  · rw [hvf he, flagByte_shiftLeft_toNat, flagByte_bitShiftedLeft_toNat, he]

/-- Settles O40: `flagThenShift` writes VF before it shifts, so that with x = F the shift clears the flag or moves it to bit 1. -/
theorem shiftsMoveTheEndBitToVf : Obligations.ShiftsMoveTheEndBitToVf := by
  intro s x y
  exact ⟨isWordOf_shr x y, exec_shr_spec s x, isWordOf_shl x y, exec_shl_spec s x⟩

/-! ### Every step answers (R87, R241, R294) -/

theorem skipIf_answers (cond : Bool) (s : State) : ∃ t, skipIf cond s = .next t := by
  rcases skipIf_cases cond s with ⟨-, h⟩ | ⟨-, -, h⟩ | ⟨-, -, h⟩ <;> exact ⟨_, h⟩

theorem keySkip_answers {i : Instr} {x : Reg} (hi : i = .skp x ∨ i = .sknp x) (s : State) : ∃ t, exec i s = .next t := by
  rcases keySkip_cases hi s with ⟨-, cond, h⟩ | ⟨-, h⟩ <;> rw [h]
  · exact skipIf_answers cond s
  · exact ⟨_, rfl⟩

theorem finish_answers (s : State) (c : Option FatalCondition) : ∃ t, finish s c = .next t :=
  ⟨_, finish_eq s c⟩

/-- With SP in its legal range every instruction answers a next state, the two that read SP included; a fatal condition is a
next state too (R241). -/
theorem exec_answers {s : State} (h : s.sp.toNat ≤ 15) (i : Instr) : ∃ t, exec i s = .next t := by
  cases i with
  | ret =>
    rcases execRet_cases s with ⟨-, he⟩ | ⟨-, _, he⟩ | ⟨hgt, -⟩
    · exact ⟨_, he⟩
    · exact ⟨_, he⟩
    · omega
  | call nnn =>
    rcases execCall_cases nnn s with ⟨-, he⟩ | ⟨_, he⟩ | ⟨hgt, -⟩
    · exact ⟨_, he⟩
    · exact ⟨_, he⟩
    · omega
  | seImm | sneImm | seReg | sneReg => exact skipIf_answers _ s
  | drw x y n =>
    simp only [exec, execDrw]
    split <;> exact ⟨_, rfl⟩
  | skp x => exact keySkip_answers (.inl rfl) s
  | sknp x => exact keySkip_answers (.inr rfl) s
  | ldF x => rcases execLdF_cases x s with ⟨-, he⟩ | ⟨-, he⟩ <;> exact ⟨_, he⟩
  | ldB | ldMemVx | ldVxMem => exact finish_answers _ _
  | _ => exact ⟨_, rfl⟩

theorem executeWord_answers {s : State} (h : s.sp.toNat ≤ 15) (w : Word) : ∃ t, executeWord w s = .next t := by
  rcases executeWord_cases w s with ⟨i, -, he⟩ | ⟨_, -, he⟩ <;> rw [he]
  · exact exec_answers h i
  · exact ⟨_, rfl⟩

theorem advance_answers {s : State} (h : s.sp.toNat ≤ 15) : ∃ t, advance s = .next t := by
  rcases s.run.eq_cases with hr | ⟨x, hr⟩ | ⟨c, hr⟩
  · by_cases hpc : s.pc.toNat ≤ 0xFFFD
    · rw [advance_of_fetched hr hpc]
      exact executeWord_answers (s := { s with pc := s.pc + 2 }) h _
    · exact ⟨_, advance_at_the_top hr (by omega)⟩
  · exact ⟨_, advance_of_waiting hr⟩
  · exact ⟨_, advance_of_faulted hr⟩

/-- Settles O56: of the invariant the bound on SP is all it takes, and no host operation but a tick can stop. -/
theorem everyStepAnswers : Obligations.EveryStepAnswers := by
  rintro s ⟨hsp, -, -⟩
  unfold step
  split
  · exact advance_answers hsp
  · next op rest _ =>
    cases op with
    | advance => exact advance_answers (s := { s with schedule := rest }) hsp
    | decrementTimers | setPressed => exact ⟨_, rfl⟩

end Sys2Proof.Machine
end

section
/-! The step cycle: what a step does with the host's schedule, a running tick from fetch to execution, the wait for a key and its
only exit, the Faulted state and the timers (spec/40_step_cycle.md R101 to R119; spec/60_exceptions.md R245, R257, R263). -/

namespace Sys2Proof.Machine

/-! ### The host's schedule (R118, R263) -/

theorem step_of_nil {s : State} (h : s.schedule = []) : step s = advance s := by
  rw [step, h]

theorem step_of_cons {s : State} {op : HostOp} {rest : List HostOp} (h : s.schedule = op :: rest) :
    step s = perform op { s with schedule := rest } := by
  rw [step, h]

/-- The timers count down whatever the schedule, and leave it. -/
theorem decrementTimers_setSchedule (s : State) (rest : List HostOp) :
    decrementTimers { s with schedule := rest } = { decrementTimers s with schedule := rest } := by
  rcases s.run.eq_cases with hr | ⟨x, hr⟩ | ⟨c, hr⟩
  · rw [decrementTimers_of_running (s := { s with schedule := rest }) hr, decrementTimers_of_running hr]
  · rw [decrementTimers_of_waiting (s := { s with schedule := rest }) hr, decrementTimers_of_waiting hr]
  · rw [decrementTimers_of_faulted (s := { s with schedule := rest }) hr, decrementTimers_of_faulted hr]

/-- Settles O8: `step` by its schedule's head; the other two operations neither read nor write the schedule. -/
theorem stepPerformsHostOperations : Obligations.StepPerformsHostOperations := by
  intro s rest
  refine ⟨step_of_nil, fun h => step_of_cons h, fun h => ?_, fun k b h => step_of_cons h⟩
  rw [step_of_cons h, perform, decrementTimers_setSchedule]

/-! ### A running tick (R101 to R105) -/

/-- What two bytes decode to is what the word they make decodes to (R80). -/
theorem decodeWord_of_decode {hi lo : Byte} {i : Instr} (h : decode [hi, lo] = .ok (i, [])) :
    decodeWord (wordOfBytes hi lo) = .ok i := by
  rw [decode] at h
  cases hd : decodeWord (wordOfBytes hi lo) with
  | ok j =>
    rw [hd] at h
    cases h
    rfl
  | error e =>
    rw [hd] at h
    cases h

theorem executeWord_of_decodeWord {w : Word} {i : Instr} (h : decodeWord w = .ok i) (s : State) :
    executeWord w s = exec i s := by
  rw [executeWord, h]

/-- A running tick that finds an instruction at PC runs it with PC advanced (R101 to R105). -/
theorem advance_of_decodeWord {s : State} {i : Instr} (hrun : s.run = .running) (hpc : s.pc.toNat ≤ 0xFFFD)
    (hi : decodeWord (wordOfBytes (s.readByte s.pc) (s.readByte (s.pc + 1))) = .ok i) :
    advance s = exec i { s with pc := s.pc + 2 } := by
  rw [advance_of_fetched hrun hpc, executeWord_of_decodeWord hi]

/-- Settles O7: either schedule makes the step a tick, and taking `advance()` off the schedule leaves RUN, PC and the bytes. -/
theorem stepRunsDecodedInstruction : Obligations.StepRunsDecodedInstruction := by
  intro s i hrun hpc hdec
  have hi := decodeWord_of_decode hdec
  refine ⟨fun h => ?_, fun rest h => ?_⟩
  · rw [step_of_nil h, advance_of_decodeWord hrun hpc hi]
  · rw [step_of_cons h]
    exact advance_of_decodeWord (s := { s with schedule := rest }) hrun hpc hi

/-- Settles O10: the fetch overflows, and raising the condition writes RUN alone. -/
theorem fetchAtTheTopFaults : Obligations.FetchAtTheTopFaults :=
  fun _ hrun hpc => advance_at_the_top hrun (by omega)

/-! ### The wait for a key (R111 to R114, R119, R224) -/

theorem isWordOf_ldVxK (x : Reg) : isWordOf (0xF00A + 0x100 * x.toNat) (.ldVxK x) :=
  isWordOf_of_wordXKK (a := 0xF) (x := x) (kk := 0x0A) (by simp; omega) (decodeWord_encodeWord (.ldVxK x))

/-- A word is decoded by its number: one whose number is an instruction's word decodes to that instruction. -/
theorem decodeWord_of_isWordOf {w : Word} {n : Nat} {i : Instr} (hw : w.toNat = n) (h : isWordOf n i) :
    decodeWord w = .ok i := by
  rwa [isWordOf, ← hw, BitVec.ofNat_toNat, BitVec.setWidth_eq] at h

theorem exec_ldVxK (x : Reg) (s : State) : exec (.ldVxK x) s = .next { s with run := .waitingForKey x } := rfl

/-- Settles O50: Fx0A is a write of RUN. -/
theorem keyWaitBegins : Obligations.KeyWaitBegins :=
  fun s x => ⟨isWordOf_ldVxK x, _, exec_ldVxK x s, rfl, s.setRun_changesOnly _⟩

/-- A register that was given a key's code, zero-extended to a byte, holds that code. -/
theorem getV_setV_keyCode (s : State) (x : Reg) (k : Nibble) : ((s.setV x (k.setWidth 8)).getV x).toNat = k.toNat := by
  rw [State.getV_setV, if_pos rfl, BitVec.toNat_setWidth_of_le (by decide)]

/-- All a tick of the wait does when k is the lowest pressed code: k goes to Vx and RUN returns to Running (R113). -/
theorem advance_waiting_pressed_spec {s : State} {x : Reg} {k : Nibble} (hrun : s.run = .waitingForKey x)
    (hk : s.isPressed k = true) (hlow : ∀ j : Nibble, j.toNat < k.toNat → s.isPressed j = false) :
    ∃ t, advance s = .next t ∧ (t.getV x).toNat = k.toNat ∧ t.run = .running ∧ s.changesOnly t {.reg x, .run} := by
  refine ⟨{ s.setV x (k.setWidth 8) with run := .running }, ?_, getV_setV_keyCode s x k, rfl,
    (s.setV_changesOnly x _).union (State.setRun_changesOnly _ _)⟩
  rw [advance_of_waiting hrun, pollKey_of_pressed hk hlow]

/-- Settles O11: the tick is a poll, which finds no key or the lowest pressed one. -/
theorem waitingTickPollsTheKeys : Obligations.WaitingTickPollsTheKeys := by
  intro s x hrun
  refine ⟨fun hnone => ?_, fun k hk hlow => advance_waiting_pressed_spec hrun hk hlow⟩
  rw [advance_of_waiting hrun, pollKey_of_released hnone]

/-- Settles O12: the first tick writes PC and RUN, so that the second is a tick of the wait with the keys as they were. -/
theorem keyWaitResolvesOnALaterTick : Obligations.KeyWaitResolvesOnALaterTick := by
  intro s x k hrun hpc hword hk hlow
  have hdec := decodeWord_of_isWordOf hword (isWordOf_ldVxK x)
  have hfirst : advance s = .next { s with pc := s.pc + 2, run := .waitingForKey x } := by
    rw [advance_of_decodeWord hrun hpc hdec, exec_ldVxK]
  obtain ⟨u, hsecond, hcode, hurun, hframe⟩ :=
    advance_waiting_pressed_spec (s := { s with pc := s.pc + 2, run := .waitingForKey x }) rfl hk hlow
  have hentry := (s.setPc_changesOnly (s.pc + 2)).union (State.setRun_changesOnly _ (.waitingForKey x))
  exact ⟨_, u, hfirst, rfl, rfl, hentry, hsecond, hurun, hcode, hframe⟩

/-- Settles O13: of the host's operations only a tick can write RUN in the wait, and it does so when the poll finds a key. -/
theorem onlyAPressedKeyEndsTheWait : Obligations.OnlyAPressedKeyEndsTheWait := by
  intro s t x hrun hstep
  have hrun' : State.run { s with schedule := s.schedule.tail } = .waitingForKey x := hrun
  rcases step_cases hstep with ⟨hsched, ha⟩ | ⟨-, rfl⟩ | ⟨k, b, -, rfl⟩
  · rw [advance_of_waiting hrun'] at ha
    cases ha
    rcases pollKey_cases x { s with schedule := s.schedule.tail } with hp | ⟨k, hk, hp⟩ <;> rw [hp]
    · exact .inl hrun
    · exact .inr ⟨rfl, hsched, k, hk, getV_setV_keyCode _ x k⟩
  · rw [decrementTimers_of_waiting hrun']
    exact .inl hrun
  · exact .inl hrun

/-! ### The Faulted state (R115, R119, R244) -/

/-- A write of the schedule changes the schedule alone. -/
theorem State.setSchedule_changesOnly (s : State) (ops : List HostOp) :
    s.changesOnly { s with schedule := ops } {.schedule} := by
  intro p hp
  cases p with
  | schedule => simp at hp
  | _ => rfl

/-- In the Faulted state the host's operations leave RUN, and only `set_pressed` changes anything: a key (R115, R257). -/
theorem perform_of_faulted {s : State} {c : FatalCondition} (h : s.run = .faulted c) (op : HostOp) :
    ∃ t, perform op s = .next t ∧ t.run = .faulted c ∧ s.changesOnly t {p | ∃ k, p = .key k} := by
  cases op with
  | advance => exact ⟨s, advance_of_faulted h, h, s.changesOnly_refl _⟩
  | decrementTimers => exact ⟨s, congrArg Host.Outcome.next (decrementTimers_of_faulted h), h, s.changesOnly_refl _⟩
  | setPressed k b =>
    exact ⟨_, rfl, h, (setPressed_changesOnly s k b).mono (Set.singleton_subset_iff.mpr ⟨k, rfl⟩)⟩

/-- Settles O14: a step takes an operation off the schedule and performs it, and none leaves the Faulted state. -/
theorem faultedIsTerminal : Obligations.FaultedIsTerminal := by
  intro s c h
  refine ⟨advance_of_faulted h, decrementTimers_of_faulted h, ?_⟩
  cases hs : s.schedule with
  | nil => exact ⟨s, by rw [step_of_nil hs, advance_of_faulted h], h, s.changesOnly_refl _⟩
  | cons op rest =>
    obtain ⟨t, hop, hrun, hkeys⟩ := perform_of_faulted (s := { s with schedule := rest }) h op
    exact ⟨t, by rw [step_of_cons hs, hop], hrun, (s.setSchedule_changesOnly rest).union hkeys⟩

/-! ### The timers (R115 to R117, R293) -/

/-- All `decrement_timers()` does while Running: either timer is one less, by natural subtraction (R117). -/
theorem decrementTimers_running_spec {s : State} (h : s.run = .running) :
    (decrementTimers s).dt.toNat = s.dt.toNat - 1 ∧ (decrementTimers s).st.toNat = s.st.toNat - 1 ∧
      s.changesOnly (decrementTimers s) {.dt, .st} := by
  rw [decrementTimers_of_running h]
  exact ⟨countDown_toNat _, countDown_toNat _, (s.setDt_changesOnly (countDown s.dt)).union (State.setSt_changesOnly _ _)⟩

/-- Settles O15: one clause for each state of RUN. -/
theorem timersCountDownOnlyWhileRunning : Obligations.TimersCountDownOnlyWhileRunning :=
  fun _ => ⟨decrementTimers_running_spec, fun _ => decrementTimers_of_waiting, fun _ => decrementTimers_of_faulted⟩

theorem decrementTimers_run (s : State) : (decrementTimers s).run = s.run := by
  rcases decrementTimers_cases s with h | h <;> rw [h]

/-- Settles O16, by induction on the number of decrements: the first leaves a running state with both timers one less. -/
theorem timerReachesZeroAfterItsValue : Obligations.TimerReachesZeroAfterItsValue := by
  intro s n
  induction n generalizing s with
  | zero => exact fun _ => ⟨rfl, rfl⟩
  | succ n ih =>
    intro hrun
    obtain ⟨hdt, hst, -⟩ := decrementTimers_running_spec hrun
    obtain ⟨ihdt, ihst⟩ := ih (decrementTimers s) (by rw [decrementTimers_run, hrun])
    rw [Function.iterate_succ_apply, ihdt, ihst, hdt, hst]
    omega

end Sys2Proof.Machine
end

section
/-! The display: clearing it, the draw whose rows all have an address, the draw that runs past 0xFFFF, and the same draw twice
(spec/41_display.md R130 to R134). -/

namespace Sys2Proof.Machine

/-- A change of the framebuffer changes pixels alone, whichever they are. -/
theorem State.setFb_changesOnly_pixels (s : State) (fb : Framebuffer) :
    s.changesOnly { s with fb := fb } {p | ∃ cx cy, p = .pixel cx cy} :=
  s.setFb_changesOnly fb fun cx cy h => absurd ⟨cx, cy, rfl⟩ h

/-- Settles O24: every pixel of the cleared framebuffer is off, and CLS writes the framebuffer alone. -/
theorem clsClearsEveryPixel : Obligations.ClsClearsEveryPixel :=
  ⟨decodeWord_encodeWord .cls, fun s => ⟨_, rfl, clearDisplay_pixel, s.setFb_changesOnly_pixels clearDisplay⟩⟩

/-! ### One draw (R133) -/

/-- `d` is what the first `n` rows of a sprite make of the framebuffer `fb`: the pixels the sprite lights are toggled, and it has
collided when one of them was on. -/
def State.spriteOver (s : State) (px py n : Nat) (fb : Framebuffer) (d : Drawing) : Prop :=
  (∀ cx cy, d.fb.pixel cx cy = true ↔ Xor (fb.pixel cx cy = true) (s.spriteLights px py n cx cy)) ∧
  (d.collided = true ↔ ∃ cx cy, s.spriteLights px py n cx cy ∧ fb.pixel cx cy = true)

/-- Rows drawn from the sprite's first on, each with an address, raise no condition and draw the sprite. -/
theorem drawRows_spriteOver (s : State) (px py n : Nat) (hn : n ≤ 32) (hi : s.i.toNat + n ≤ 0x10000) :
    ∃ d, drawRows s px py 0 n ⟨s.fb, false⟩ = (d, none) ∧ s.spriteOver px py n s.fb d := by
  obtain ⟨hnone, hpix, hcoll⟩ := drawRows_spec s px py n 0 ⟨s.fb, false⟩ (by omega) (by omega)
  refine ⟨_, Prod.ext rfl hnone, fun cx cy => ?_, ?_⟩
  · rw [hpix, State.spriteLights_iff]
  · simpa [State.spriteLights_iff] using hcoll

/-- The state a draw that raises no condition ends in. -/
def State.afterDraw (s : State) (d : Drawing) : State := State.setFlag { s with fb := d.fb } d.collided

theorem State.getV_afterDraw_of_ne (s : State) (d : Drawing) {x : Reg} (h : x ≠ 0xF) : (s.afterDraw d).getV x = s.getV x :=
  State.getV_setFlag_of_ne _ _ h

/-- A draw changes nothing a sprite is read from. -/
theorem State.spriteOver_afterDraw (s : State) (d : Drawing) : (s.afterDraw d).spriteOver = s.spriteOver := rfl

/-- VF after a draw whose collision reports P is 1 where P holds and 0 where it does not. -/
theorem State.getV_afterDraw_flag (s : State) {d : Drawing} {P : Prop} (h : d.collided = true ↔ P) :
    (P → (s.afterDraw d).getV 0xF = 1) ∧ (¬ P → (s.afterDraw d).getV 0xF = 0) := by
  rw [State.afterDraw, State.getV_setFlag_flag, ← h]
  cases d.collided <;> simp

theorem State.afterDraw_changesOnly (s : State) (d : Drawing) :
    s.changesOnly (s.afterDraw d) ({.reg 0xF} ∪ {p | ∃ cx cy, p = .pixel cx cy}) := by
  rw [Set.union_comm]
  exact (s.setFb_changesOnly_pixels d.fb).union (State.setFlag_changesOnly _ d.collided)

/-- Dxyn where no row's address overflows. -/
theorem exec_drw_of_fits (s : State) (x y : Reg) (n : Nibble) (hi : s.i.toNat + n.toNat ≤ 0x10000) :
    ∃ d, exec (.drw x y n) s = .next (s.afterDraw d) ∧
      s.spriteOver (s.getV x).toNat (s.getV y).toNat n.toNat s.fb d := by
  obtain ⟨d, hd, hover⟩ := drawRows_spriteOver s (s.getV x).toNat (s.getV y).toNat n.toNat (by omega) hi
  exact ⟨d, by simp only [exec, execDrw, hd, State.afterDraw], hover⟩

/-- Dxyn whose row k is the first without an address (decisions D5 and D22). -/
theorem exec_drw_of_overflow (s : State) (x y : Reg) {n : Nibble} {k : Nat} (hk : k < n.toNat)
    (hi : s.i.toNat + k = 0x10000) :
    ∃ d, exec (.drw x y n) s = .next (State.fail { s with fb := d.fb } (.addressOverflow 0x10000)) ∧
      s.spriteOver (s.getV x).toNat (s.getV y).toNat k s.fb d := by
  obtain ⟨d, hd, hover⟩ := drawRows_spriteOver s (s.getV x).toNat (s.getV y).toNat k (by omega) (by omega)
  have hstop := drawRows_stop s (s.getV x).toNat (s.getV y).toNat n.toNat 0 k ⟨s.fb, false⟩ hk (by omega)
  rw [hd] at hstop
  exact ⟨d, by simp only [exec, execDrw, hstop, raise], hover⟩

theorem isWordOf_drw (x y : Reg) (n : Nibble) :
    isWordOf (0xD000 + 0x100 * x.toNat + 0x10 * y.toNat + n.toNat) (.drw x y n) :=
  isWordOf_of_wordXYN (a := 0xD) (by simp) (decodeWord_encodeWord (.drw x y n))

/-- Settles O25: the rows toggle the pixels the sprite lights, and the collision they report becomes VF. -/
theorem drawTogglesTheSpritesPixels : Obligations.DrawTogglesTheSpritesPixels := by
  refine fun s x y n => ⟨isWordOf_drw x y n, fun hi => ?_⟩
  obtain ⟨d, hexec, hpix, hcoll⟩ := exec_drw_of_fits s x y n hi
  obtain ⟨hone, hzero⟩ := s.getV_afterDraw_flag hcoll
  exact ⟨_, hexec, hpix, hone, hzero, s.afterDraw_changesOnly d⟩

/-- Settles O26: the draw stops at row k with the pixels that k rows leave, and raising the condition writes RUN. -/
theorem drawPastTheTopFaultsAtThatRow : Obligations.DrawPastTheTopFaultsAtThatRow := by
  intro s x y n k hk hi
  obtain ⟨d, hexec, hpix, -⟩ := exec_drw_of_overflow s x y hk hi
  refine ⟨_, hexec, rfl, hpix, ?_⟩
  rw [Set.union_comm]
  exact (s.setFb_changesOnly_pixels d.fb).union (State.fail_changesOnly _ _)

/-! ### The same draw twice (R130, R134) -/

/-- `xor_pixel` is its own inverse, and reports the opposite the second time. -/
theorem xorPixel_xorPixel (fb : Framebuffer) (px py : Nat) :
    xorPixel (xorPixel fb px py).1 px py = (fb, !(xorPixel fb px py).2) := by
  refine Prod.ext (Framebuffer.ext_pixel fun cx cy => ?_) ?_
  · by_cases hat : cx = wrapX px ∧ cy = wrapY py
    · obtain ⟨rfl, rfl⟩ := hat
      simp [xorPixel_pixel]
    · simp only [xorPixel_pixel, if_neg hat]
  · simp [xorPixel_collided, xorPixel_pixel]

/-- A sprite drawn over itself gives the framebuffer back, and collides where one of its pixels was off before both. -/
theorem State.spriteOver_twice {s : State} {px py n : Nat} {fb : Framebuffer} {d e : Drawing}
    (hd : s.spriteOver px py n fb d) (he : s.spriteOver px py n d.fb e) :
    e.fb = fb ∧ (e.collided = true ↔ ∃ cx cy, s.spriteLights px py n cx cy ∧ fb.pixel cx cy = false) := by
  obtain ⟨hdpix, -⟩ := hd
  obtain ⟨hepix, hecoll⟩ := he
  constructor
  · refine Framebuffer.ext_pixel fun cx cy => ?_
    rw [Bool.eq_iff_iff, hepix, hdpix, ← symmDiff_eq_xor, ← symmDiff_eq_xor, symmDiff_symmDiff_cancel_right]
  · refine hecoll.trans (exists₂_congr fun cx cy => and_congr_right fun hlit => ?_)
    simp [hdpix, hlit, Xor]

/-- The second of two equal draws, with x and y not F: it reads the coordinates and the sprite that the first one read. -/
theorem exec_drw_afterDraw (s : State) (d : Drawing) {x y : Reg} {n : Nibble} (hx : x ≠ 0xF) (hy : y ≠ 0xF)
    (hi : s.i.toNat + n.toNat ≤ 0x10000) :
    ∃ e, exec (.drw x y n) (s.afterDraw d) = .next ((s.afterDraw d).afterDraw e) ∧
      s.spriteOver (s.getV x).toNat (s.getV y).toNat n.toNat d.fb e := by
  have h := exec_drw_of_fits (s.afterDraw d) x y n hi
  rwa [s.getV_afterDraw_of_ne d hx, s.getV_afterDraw_of_ne d hy, s.spriteOver_afterDraw d] at h

/-- Settles O27: the second draw draws the same sprite over what the first one left. -/
theorem drawTwiceRestoresTheFramebuffer : Obligations.DrawTwiceRestoresTheFramebuffer := by
  refine ⟨xorPixel_xorPixel, fun s x y n hx hy hi => ?_⟩
  obtain ⟨d, hfirst, hd⟩ := exec_drw_of_fits s x y n hi
  obtain ⟨e, hsecond, he⟩ := exec_drw_afterDraw s d hx hy hi
  obtain ⟨hback, hcoll⟩ := State.spriteOver_twice hd he
  obtain ⟨hone, hzero⟩ := (s.afterDraw d).getV_afterDraw_flag hcoll
  exact ⟨_, _, hfirst, hsecond, hback, hone, hzero⟩

end Sys2Proof.Machine
end

section
/-! Control transfer: return, call, the two jumps, and the skips on a comparison or a key (spec/42_flow.md R150 to R158;
spec/45_keys_timers.md R220 to R222). -/

namespace Sys2Proof.Machine

/-- A number is the word of an instruction when it is the number of a format NNN word that decodes to it (R82, R84). -/
theorem isWordOf_of_wordNNN {a : Nibble} {nnn : Imm12} {w : Nat} {i : Instr}
    (hw : w = 0x1000 * a.toNat + nnn.toNat) (hi : decodeWord (wordNNN a nnn) = .ok i) : isWordOf w i := by
  rw [isWordOf, hw, wordNNN_eq_ofNat, hi]

/-! ### Return and call (R151, R153) -/

/-- A write of SP changes SP alone. -/
theorem State.setSp_changesOnly (s : State) (b : Byte) : s.changesOnly { s with sp := b } {.sp} := by
  intro p hp
  cases p with
  | sp => simp at hp
  | _ => rfl

/-- A write of one stack entry changes that entry alone. -/
theorem State.setStack_changesOnly (s : State) (k : Fin 16) (a : Addr) :
    s.changesOnly { s with stack := s.stack.set k a } {.stackEntry k} := by
  intro p hp
  cases p with
  | stackEntry j =>
    have hne : k.val ≠ j.val := fun e => hp (congrArg Part.stackEntry (Fin.ext e.symm))
    exact Vector.getElem_set_ne k.isLt j.isLt hne
  | _ => rfl

/-- Settles O29: RET writes PC and SP, and one less than an SP other than 0 does not wrap. -/
theorem retPopsTheStack : Obligations.RetPopsTheStack := by
  refine ⟨decodeWord_encodeWord .ret, fun s => ⟨fun h0 => if_pos h0, fun hlt h0 => ?_⟩⟩
  have hframe := (s.setPc_changesOnly s.stack[s.sp.toNat]).union (State.setSp_changesOnly _ (s.sp - 1))
  refine ⟨_, execRet_of_lt h0 hlt, rfl, ?_, hframe⟩
  show (s.sp - 1).toNat + 1 = s.sp.toNat
  bv_omega

theorem isWordOf_call (nnn : Imm12) : isWordOf (0x2000 + nnn.toNat) (.call nnn) :=
  isWordOf_of_wordNNN (a := 0x2) rfl (decodeWord_encodeWord (.call nnn))

/-- Settles O30: CALL writes SP, PC and the entry above the old SP, and one more than an SP below 15 does not wrap. -/
theorem callPushesTheReturnAddress : Obligations.CallPushesTheReturnAddress := by
  refine fun s nnn => ⟨isWordOf_call nnn, fun h15 => if_pos h15, fun hlt => ?_⟩
  have hframe := (s.setSp_changesOnly (s.sp + 1)).union <|
    (State.setPc_changesOnly _ (addrOfImm nnn)).union (State.setStack_changesOnly _ ⟨s.sp.toNat + 1, by omega⟩ s.pc)
  refine ⟨_, execCall_of_lt nnn hlt, ?_, Vector.getElem_set_self _, addrOfImm_toNat nnn, hframe⟩
  show (s.sp + 1).toNat = s.sp.toNat + 1
  bv_omega

/-! ### Jumps (R152, R158) -/

theorem isWordOf_jp (nnn : Imm12) : isWordOf (0x1000 + nnn.toNat) (.jp nnn) :=
  isWordOf_of_wordNNN (a := 0x1) rfl (decodeWord_encodeWord (.jp nnn))

theorem isWordOf_jpV0 (nnn : Imm12) : isWordOf (0xB000 + nnn.toNat) (.jpV0 nnn) :=
  isWordOf_of_wordNNN (a := 0xB) rfl (decodeWord_encodeWord (.jpV0 nnn))

/-- Settles O33: JP is a write of PC. -/
theorem jumpSetsPc : Obligations.JumpSetsPc :=
  fun s nnn => ⟨isWordOf_jp nnn, _, rfl, addrOfImm_toNat nnn, s.setPc_changesOnly _⟩

/-- A 12-bit address and a byte have a sum in 16 bits (decision D23). -/
theorem addrOfImm_add_addrOfByte_toNat (nnn : Imm12) (b : Byte) :
    (addrOfImm nnn + addrOfByte b).toNat = nnn.toNat + b.toNat := by
  rw [BitVec.toNat_add, addrOfImm_toNat, addrOfByte_toNat]
  omega

/-- Settles O34: JP V0 is a write of PC. -/
theorem jumpWithOffsetAddsV0 : Obligations.JumpWithOffsetAddsV0 :=
  fun s nnn => ⟨isWordOf_jpV0 nnn, _, rfl, addrOfImm_add_addrOfByte_toNat nnn (s.getV 0x0), s.setPc_changesOnly _⟩

/-! ### Skips (R150) -/

/-- An instruction that ends in a conditional skip skips exactly when what its condition tests holds. -/
theorem skipsWhen_of_skipIf {i : Instr} {s : State} {cond : Bool} {taken : Prop} (hexec : exec i s = skipIf cond s)
    (htaken : cond = true ↔ taken) : skipsWhen i s taken := by
  rw [skipsWhen, hexec, ← htaken]
  rcases skipIf_cases cond s with ⟨hcond, h⟩ | ⟨hcond, hpc, h⟩ | ⟨hcond, hpc, h⟩ <;> rw [h, hcond]
  · exact ⟨fun _ => rfl, fun ht => absurd ht Bool.false_ne_true, fun ht => absurd ht Bool.false_ne_true⟩
  · have hsum : (s.pc + 2).toNat = s.pc.toNat + 2 := addr_add_toNat (k := 2) (by omega)
    exact ⟨fun hf => absurd rfl hf, fun _ _ => ⟨_, rfl, hsum, s.setPc_changesOnly _⟩, fun _ hgt => by omega⟩
  · exact ⟨fun hf => absurd rfl hf, fun _ hle => by omega, fun _ _ => rfl⟩

theorem isWordOf_seImm (x : Reg) (kk : Byte) : isWordOf (0x3000 + 0x100 * x.toNat + kk.toNat) (.seImm x kk) :=
  isWordOf_of_wordXKK (a := 0x3) rfl (decodeWord_encodeWord (.seImm x kk))

theorem isWordOf_sneImm (x : Reg) (kk : Byte) : isWordOf (0x4000 + 0x100 * x.toNat + kk.toNat) (.sneImm x kk) :=
  isWordOf_of_wordXKK (a := 0x4) rfl (decodeWord_encodeWord (.sneImm x kk))

theorem isWordOf_seReg (x y : Reg) : isWordOf (0x5000 + 0x100 * x.toNat + 0x10 * y.toNat) (.seReg x y) :=
  isWordOf_of_wordXYN (a := 0x5) (n := 0x0) rfl (decodeWord_encodeWord (.seReg x y))

theorem isWordOf_sneReg (x y : Reg) : isWordOf (0x9000 + 0x100 * x.toNat + 0x10 * y.toNat) (.sneReg x y) :=
  isWordOf_of_wordXYN (a := 0x9) (n := 0x0) rfl (decodeWord_encodeWord (.sneReg x y))

/-- Settles O35: each of the four is a conditional skip on its comparison. -/
theorem comparisonSkips : Obligations.ComparisonSkips := fun s x y kk =>
  ⟨isWordOf_seImm x kk, skipsWhen_of_skipIf (cond := s.getV x == kk) rfl beq_iff_eq,
    isWordOf_sneImm x kk, skipsWhen_of_skipIf (cond := s.getV x != kk) rfl bne_iff_ne,
    isWordOf_seReg x y, skipsWhen_of_skipIf (cond := s.getV x == s.getV y) rfl beq_iff_eq,
    isWordOf_sneReg x y, skipsWhen_of_skipIf (cond := s.getV x != s.getV y) rfl bne_iff_ne⟩

/-! ### Skips on a key (R220 to R222) -/

theorem isWordOf_skp (x : Reg) : isWordOf (0xE09E + 0x100 * x.toNat) (.skp x) :=
  isWordOf_of_wordXKK (a := 0xE) (x := x) (kk := 0x9E) (by simp; omega) (decodeWord_encodeWord (.skp x))

theorem isWordOf_sknp (x : Reg) : isWordOf (0xE0A1 + 0x100 * x.toNat) (.sknp x) :=
  isWordOf_of_wordXKK (a := 0xE) (x := x) (kk := 0xA1) (by simp; omega) (decodeWord_encodeWord (.sknp x))

/-- The key index of a byte that holds a key's code is that key. -/
theorem keyIndex_of_toNat_eq {b : Byte} {k : Nibble} (h : b.toNat = k.toNat) : keyIndex b = .ok k := by
  rcases keyIndex_cases b with ⟨-, hok⟩ | ⟨hgt, -⟩
  · rw [hok]
    congr 1
    bv_omega
  · omega

theorem exec_skp_of_key {s : State} {x : Reg} {k : Nibble} (h : (s.getV x).toNat = k.toNat) :
    exec (.skp x) s = skipIf (s.isPressed k) s := by
  simp only [exec, execSkp, keyIndex_of_toNat_eq h]

theorem exec_sknp_of_key {s : State} {x : Reg} {k : Nibble} (h : (s.getV x).toNat = k.toNat) :
    exec (.sknp x) s = skipIf (!s.isPressed k) s := by
  simp only [exec, execSknp, keyIndex_of_toNat_eq h]

/-- A code above 0xF is a fatal condition for both key skips, before either skips (decision D8). -/
theorem keySkip_of_gt {i : Instr} {x : Reg} (hi : i = .skp x ∨ i = .sknp x) {s : State} (h : 0xF < (s.getV x).toNat) :
    exec i s = raise (.keyIndexOutOfRange (s.getV x)) s := by
  rcases keySkip_cases hi s with ⟨hle, -⟩ | ⟨-, he⟩
  · omega
  · exact he

/-- Settles O48: with a key's code in Vx both are conditional skips on that key's level, SKNP on its negation. -/
theorem keySkips : Obligations.KeySkips := by
  refine fun s x => ⟨isWordOf_skp x, isWordOf_sknp x, fun k hk => ⟨?_, ?_⟩, fun hgt => ⟨?_, ?_⟩⟩
  · exact skipsWhen_of_skipIf (exec_skp_of_key hk) Iff.rfl
  · exact skipsWhen_of_skipIf (exec_sknp_of_key hk) (Bool.not_eq_true' _).to_iff
  · exact keySkip_of_gt (.inl rfl) hgt
  · exact keySkip_of_gt (.inr rfl) hgt

end Sys2Proof.Machine
end

section
/-! The register instructions: load, add and copy, the bitwise operations, the arithmetic with a flag, and the random byte
(spec/43_alu.md R170 to R183). -/

namespace Sys2Proof.Machine

/-! ### Words with leading nibble 8 (R84 rows 10 to 18) -/

/-- An instruction that is encoded with leading nibble 8 and function nibble `n` has the word of its row and operands. -/
theorem isWordOf_of_encodeWord_8 {x y : Reg} (n : Nibble) {i : Instr} (h : encodeWord i = wordXYN 0x8 x y n) :
    isWordOf (0x8000 + n.toNat + 0x100 * x.toNat + 0x10 * y.toNat) i :=
  isWordOf_of_wordXYN (by simp; omega) (h ▸ decodeWord_encodeWord i)

/-! ### One register written (R172 to R177) -/

/-- A register reads as what was last written to it. -/
theorem State.getV_setV_same (s : State) (x : Reg) (b : Byte) : (s.setV x b).getV x = b := by
  rw [State.getV_setV, if_pos rfl]

/-- An instruction that is one write of Vx sets that register. -/
theorem setsRegister_of_setV {i : Instr} {s : State} {x : Reg} {b : Byte} (h : exec i s = .next (s.setV x b)) :
    setsRegister i s x b :=
  ⟨_, h, s.getV_setV_same x b, s.setV_changesOnly x b⟩

/-- A value described bit by bit describes the register an instruction sets to it. -/
theorem setsRegister_bits {i : Instr} {s : State} {x : Reg} {value : Byte} {f : Nat → Bool} (h : setsRegister i s x value)
    (hbits : ∀ b, value.getLsbD b = f b) :
    ∃ t, exec i s = .next t ∧ s.changesOnly t {.reg x} ∧ ∀ b, (t.getV x).getLsbD b = f b := by
  obtain ⟨t, hexec, hvalue, hframe⟩ := h
  exact ⟨t, hexec, hframe, fun b => hvalue ▸ hbits b⟩

/-- The sum of two bytes is their sum as natural numbers modulo 256. -/
theorem byte_add_eq_ofNat_mod (a b : Byte) : a + b = BitVec.ofNat 8 ((a.toNat + b.toNat) % 256) := by
  bv_omega

/-- Settles O36: each of the three is one write of Vx, and the sum of bytes is the one that wraps. -/
theorem loadAddAndCopyRegister : Obligations.LoadAddAndCopyRegister := by
  refine fun s x y kk => ⟨?_, setsRegister_of_setV rfl, ?_, ?_, isWordOf_of_encodeWord_8 0x0 rfl, setsRegister_of_setV rfl⟩
  · exact isWordOf_of_wordXKK (a := 0x6) rfl (decodeWord_encodeWord (.ldImm x kk))
  · exact isWordOf_of_wordXKK (a := 0x7) rfl (decodeWord_encodeWord (.addImm x kk))
  · rw [← byte_add_eq_ofNat_mod]
    exact setsRegister_of_setV rfl

/-- Settles O37: each of the three is one write of Vx, whose bits are those of the bit-vector operation. -/
theorem bitwiseRegisterOperations : Obligations.BitwiseRegisterOperations := fun _ _ _ =>
  ⟨⟨isWordOf_of_encodeWord_8 0x1 rfl, setsRegister_bits (setsRegister_of_setV rfl) fun _ => BitVec.getLsbD_or⟩,
    ⟨isWordOf_of_encodeWord_8 0x2 rfl, setsRegister_bits (setsRegister_of_setV rfl) fun _ => BitVec.getLsbD_and⟩,
    ⟨isWordOf_of_encodeWord_8 0x3 rfl, setsRegister_bits (setsRegister_of_setV rfl) fun _ => BitVec.getLsbD_xor⟩⟩

/-! ### A result and a flag (R170, R171, R178, R179, R181) -/

/-- An instruction that writes a result to Vx and then a flag to VF sets both; with x = F the flag is what stays. -/
theorem setsResultAndFlag_of_resultThenFlag {i : Instr} {s : State} {x : Reg} {b : Byte} {f : Bool} {result : Nat} {flag : Prop}
    (hexec : exec i s = .next (s.resultThenFlag x b f)) (hresult : b.toNat = result) (hflag : f = true ↔ flag) :
    setsResultAndFlag i s x result flag := by
  obtain ⟨hx, hvf, hframe⟩ := s.resultThenFlag_spec x b f
  refine ⟨_, hexec, fun hne => by rw [hx hne, hresult], fun ht => ?_, fun hf => ?_, hframe⟩
  · rw [hvf, hflag.mpr ht, flagByte_true]
  · rw [hvf, Bool.eq_false_iff.mpr (mt hflag.mp hf), flagByte_false]

/-- The flag of 8xy4 is the carry (R178). -/
theorem carryOut_iff (a b : Byte) : carryOut a b = true ↔ 255 < a.toNat + b.toNat := decide_eq_true_iff

/-- The flag of 8xy5 and 8xy7 is the strict comparison (R179, R181). -/
theorem strictlyGreater_iff (a b : Byte) : strictlyGreater a b = true ↔ b.toNat < a.toNat := decide_eq_true_iff

/-- The difference of two bytes as natural numbers: the minuend is raised by 256 before the subtraction. -/
theorem byte_sub_toNat (a b : Byte) : (a - b).toNat = (a.toNat + 256 - b.toNat) % 256 := by
  bv_omega

/-- Settles O38: the result is the bit-vector sum, the flag the carry of the old values. -/
theorem addSetsSumAndCarry : Obligations.AddSetsSumAndCarry := fun _ _ _ =>
  ⟨isWordOf_of_encodeWord_8 0x4 rfl,
    setsResultAndFlag_of_resultThenFlag rfl (BitVec.toNat_add _ _) (carryOut_iff _ _)⟩

/-- Settles O39: the result is the bit-vector difference, the flag the strict comparison of the old values; SUBN swaps them. -/
theorem subtractSetsDifferenceAndFlag : Obligations.SubtractSetsDifferenceAndFlag := fun _ _ _ =>
  ⟨isWordOf_of_encodeWord_8 0x5 rfl,
    setsResultAndFlag_of_resultThenFlag rfl (byte_sub_toNat _ _) (strictlyGreater_iff _ _),
    isWordOf_of_encodeWord_8 0x7 rfl,
    setsResultAndFlag_of_resultThenFlag rfl (byte_sub_toNat _ _) (strictlyGreater_iff _ _)⟩

/-! ### The random byte (R183) -/

theorem isWordOf_rnd (x : Reg) (kk : Byte) : isWordOf (0xC000 + 0x100 * x.toNat + kk.toNat) (.rnd x kk) :=
  isWordOf_of_wordXKK (a := 0xC) rfl (decodeWord_encodeWord (.rnd x kk))

/-- Settles O41: RND uses up a draw and then writes Vx; its frame is the one every instruction has. -/
theorem randomByteIsMasked : Obligations.RandomByteIsMasked := fun s x kk =>
  ⟨isWordOf_rnd x kk, _, rfl, s.drawn.getV_setV_same x _, rfl, (exec_changesOnly (.rnd x kk) s).of_eq_next rfl⟩

end Sys2Proof.Machine
end

section
/-! Index register and memory instructions: I loaded and added to, the digits and the registers stored at I, and the registers
loaded from I, each of the last three with its fatal condition (spec/44_index_memory.md R200 to R206). -/

namespace Sys2Proof.Machine

/-! ### Annn and Fx1E (R200, R201) -/

theorem isWordOf_ldI (nnn : Imm12) : isWordOf (0xA000 + nnn.toNat) (.ldI nnn) :=
  isWordOf_of_wordNNN (a := 0xA) rfl (decodeWord_encodeWord (.ldI nnn))

theorem isWordOf_addI (x : Reg) : isWordOf (0xF01E + 0x100 * x.toNat) (.addI x) :=
  isWordOf_of_wordXKK (a := 0xF) (x := x) (kk := 0x1E) (by simp; omega) (decodeWord_encodeWord (.addI x))

/-- An address plus a byte wraps at 16 bits. -/
theorem add_addrOfByte_toNat (a : Addr) (b : Byte) : (a + addrOfByte b).toNat = (a.toNat + b.toNat) % 65536 := by
  rw [BitVec.toNat_add, addrOfByte_toNat]

/-- Settles O42: each of the two is one write of I. -/
theorem indexLoadAndAdd : Obligations.IndexLoadAndAdd := fun s x nnn =>
  ⟨isWordOf_ldI nnn, ⟨_, rfl, addrOfImm_toNat nnn, s.setI_changesOnly _⟩,
    isWordOf_addI x, ⟨_, rfl, add_addrOfByte_toNat s.i (s.getV x), s.setI_changesOnly _⟩⟩

/-! ### Stores at I, with the bytes they change named by their offsets (R203, R204) -/

/-- The `n` bytes from `base` up, as parts of the state. -/
def bytesFrom (base : Addr) (n : Nat) : Set Part := {p | ∃ l < n, p = .byte (base + BitVec.ofNat 16 l)}

/-- An address in the range of `n` bytes from `base` up is one of them. -/
theorem byte_mem_bytesFrom {base a : Addr} {n : Nat} (hlo : base.toNat ≤ a.toNat) (hhi : a.toNat < base.toNat + n) :
    Part.byte a ∈ bytesFrom base n := by
  refine ⟨a.toNat - base.toNat, by omega, congrArg Part.byte (BitVec.eq_of_toNat_eq ?_)⟩
  rw [addr_add_toNat (by omega)]
  omega

/-- A memory that reads as before outside a range changes the bytes of that range alone. -/
theorem State.setMem_changesOnly_bytesFrom (s : State) {m : Memory} {base : Addr} {n : Nat}
    (h : ∀ a : Addr, ¬ (base.toNat ≤ a.toNat ∧ a.toNat < base.toNat + n) →
      State.readByte { s with mem := m } a = s.readByte a) : s.changesOnly { s with mem := m } (bytesFrom base n) :=
  s.setMem_changesOnly m fun a ha => h a fun ⟨hlo, hhi⟩ => ha (byte_mem_bytesFrom hlo hhi)

/-- A store at I inside program space: the bytes stand there and no other part changes. -/
theorem storeAtI_writes (s : State) (bytes : List Byte) (hlo : 0x200 ≤ s.i.toNat) (hhi : s.i.toNat + bytes.length ≤ 0x1000) :
    ∃ t, storeAtI bytes s = .next t ∧
      (∀ k (hk : k < bytes.length), t.readByte (s.i + BitVec.ofNat 16 k) = bytes[k]) ∧
      s.changesOnly t (bytesFrom s.i bytes.length) := by
  obtain ⟨m, hm, hread, hframe⟩ := storeAtI_spec s bytes hlo hhi
  exact ⟨_, hm, hread, s.setMem_changesOnly_bytesFrom hframe⟩

/-- A store at I whose byte j is the first outside program space: the bytes before it stand, RUN names its address and no other
part changes (R243, decision D22). -/
theorem storeAtI_faults (s : State) (bytes : List Byte) {j : Nat} (hj : j < bytes.length) (hle : s.i.toNat + j ≤ 0xFFFF)
    (hin : ∀ l < j, inProgramSpace (s.i.toNat + l)) (hout : ¬ inProgramSpace (s.i.toNat + j)) :
    ∃ t, storeAtI bytes s = .next t ∧ t.run = .faulted (.invalidWrite (s.i + BitVec.ofNat 16 j)) ∧
      (∀ k (hk : k < j), t.readByte (s.i + BitVec.ofNat 16 k) = bytes[k]) ∧
      s.changesOnly t ({.run} ∪ bytesFrom s.i j) := by
  obtain ⟨m, hm, hread, hframe⟩ := storeAtI_stop s bytes j hj hle hin hout
  exact ⟨_, hm, rfl, hread, raise_changesOnly (s.setMem_changesOnly_bytesFrom hframe) _⟩

/-! ### Fx33 (R203, R206) -/

theorem isWordOf_ldB (x : Reg) : isWordOf (0xF033 + 0x100 * x.toNat) (.ldB x) :=
  isWordOf_of_wordXKK (a := 0xF) (x := x) (kk := 0x33) (by simp; omega) (decodeWord_encodeWord (.ldB x))

@[simp] theorem bcdDigits_length (b : Byte) : (bcdDigits b).length = 3 := rfl

/-- No digit is too large for its byte: the largest byte has 2 hundreds. -/
theorem bcdDigits_map_toNat (b : Byte) :
    (bcdDigits b).map BitVec.toNat = [b.toNat / 100, b.toNat / 10 % 10, b.toNat % 10] := by
  have hb := b.isLt
  simp only [bcdDigits, List.map_cons, List.map_nil, BitVec.toNat_ofNat, List.cons.injEq, and_true]
  omega

/-- Digit k of a byte, read through the list of its digits as natural numbers. -/
theorem bcdDigits_getElem_toNat (b : Byte) {k : Nat} (hk : k < (bcdDigits b).length) :
    (bcdDigits b)[k].toNat = [b.toNat / 100, b.toNat / 10 % 10, b.toNat % 10][k] := by
  simp only [← bcdDigits_map_toNat, List.getElem_map]

/-- Where the first `j` digits of a byte stand from `base` up, they are its hundreds, its tens and its ones. -/
theorem digits_of_readByte {t : State} {base : Addr} {b : Byte} {j : Nat} (hj : j ≤ (bcdDigits b).length)
    (h : ∀ k (hk : k < j), t.readByte (base + BitVec.ofNat 16 k) = (bcdDigits b)[k]) :
    (0 < j → (t.readByte base).toNat = b.toNat / 100) ∧
    (1 < j → (t.readByte (base + 1)).toNat = b.toNat / 10 % 10) ∧
    (2 < j → (t.readByte (base + 2)).toNat = b.toNat % 10) := by
  have hdigit (k : Nat) (hk : k < j) := (congrArg BitVec.toNat (h k hk)).trans (bcdDigits_getElem_toNat b _)
  refine ⟨fun h0 => ?_, hdigit 1, hdigit 2⟩
  have hhundreds := hdigit 0 h0
  rwa [BitVec.add_zero] at hhundreds

theorem bytesFrom_three_subset (base : Addr) :
    bytesFrom base 3 ⊆ {.byte base, .byte (base + 1), .byte (base + 2)} := by
  rintro p ⟨l, hl, rfl⟩
  interval_cases l <;> simp

/-- Settles O44: the store at I of the three digits. -/
theorem bcdStoresThreeDigits : Obligations.BcdStoresThreeDigits := by
  refine fun s x => ⟨isWordOf_ldB x, fun hlo hhi => ?_⟩
  obtain ⟨t, hexec, hread, hframe⟩ := storeAtI_writes s (bcdDigits (s.getV x)) hlo (by simp; omega)
  obtain ⟨hhundreds, htens, hones⟩ := digits_of_readByte (j := 3) le_rfl hread
  exact ⟨t, hexec, hhundreds (by decide), htens (by decide), hones (by decide), hframe.mono (bytesFrom_three_subset s.i)⟩

/-! ### Fx55 (R204) -/

theorem isWordOf_ldMemVx (x : Reg) : isWordOf (0xF055 + 0x100 * x.toNat) (.ldMemVx x) :=
  isWordOf_of_wordXKK (a := 0xF) (x := x) (kk := 0x55) (by simp; omega) (decodeWord_encodeWord (.ldMemVx x))

/-- An offset up to a register's number is itself a register's number. -/
theorem bytesFrom_subset_regs (base : Addr) (x : Reg) :
    bytesFrom base (x.toNat + 1) ⊆ {p | ∃ k : Reg, k.toNat ≤ x.toNat ∧ p = .byte (base + BitVec.ofNat 16 k.toNat)} := by
  rintro p ⟨l, hl, rfl⟩
  have hk : (BitVec.ofNat 4 l).toNat = l := by rw [BitVec.toNat_ofNat]; omega
  exact ⟨BitVec.ofNat 4 l, by omega, by rw [hk]⟩

/-- Settles O45: the store at I of V0 to Vx. -/
theorem storeRegistersAtIndex : Obligations.StoreRegistersAtIndex := by
  refine fun s x => ⟨isWordOf_ldMemVx x, fun hlo hhi => ?_⟩
  have hlen := s.regsUpTo_length x
  obtain ⟨t, hexec, hread, hframe⟩ := storeAtI_writes s (s.regsUpTo x) hlo (by omega)
  rw [hlen] at hframe
  exact ⟨t, hexec, fun k hk => (hread k.toNat (by omega)).trans (s.regsUpTo_getElem x k _),
    hframe.mono (bytesFrom_subset_regs s.i x)⟩

/-! ### Fx33 and Fx55 past program space (R243) -/

/-- Settles O46: both are stores at I, of three bytes and of x + 1. -/
theorem storeFaultsAtTheFirstBadAddress : Obligations.StoreFaultsAtTheFirstBadAddress := by
  refine fun s x j hle hin hout => ⟨fun hj => ?_, fun hj => ?_⟩
  · obtain ⟨t, hexec, hrun, hread, hframe⟩ :=
      storeAtI_faults s (bcdDigits (s.getV x)) (Nat.lt_succ_of_le hj) hle hin hout
    obtain ⟨hhundreds, htens, -⟩ := digits_of_readByte (j := j) (by simp; omega) hread
    exact ⟨t, hexec, hrun, hhundreds, htens, hframe⟩
  · have hlen := s.regsUpTo_length x
    obtain ⟨t, hexec, hrun, hread, hframe⟩ := storeAtI_faults s (s.regsUpTo x) (j := j) (by omega) hle hin hout
    exact ⟨t, hexec, hrun, fun k hk => (hread k.toNat hk).trans (s.regsUpTo_getElem x k _), hframe⟩

/-! ### Fx65 (R205) -/

theorem isWordOf_ldVxMem (x : Reg) : isWordOf (0xF065 + 0x100 * x.toNat) (.ldVxMem x) :=
  isWordOf_of_wordXKK (a := 0xF) (x := x) (kk := 0x65) (by simp; omega) (decodeWord_encodeWord (.ldVxMem x))

/-- V0 up to the `n`th register, loaded from I where no address overflows: each takes its byte and no other part changes. -/
theorem loadRegs_fromI (s : State) {n : Nat} (hn : n ≤ 16) (hi : s.i.toNat + n ≤ 0x10000) :
    (loadRegs s.i 0 n s).2 = none ∧
    (∀ k : Reg, k.toNat < n → (loadRegs s.i 0 n s).1.getV k = s.readByte (s.i + BitVec.ofNat 16 k.toNat)) ∧
    s.changesOnly (loadRegs s.i 0 n s).1 {p | ∃ k : Reg, k.toNat < n ∧ p = .reg k} := by
  obtain ⟨hnone, hval⟩ := loadRegs_spec s.i n 0 s (by omega) (by omega)
  have hframe := loadRegs_writes s.i n 0 s
  rw [Nat.zero_add] at hframe
  exact ⟨hnone, fun k hk => by rw [hval, if_pos (by omega)], hframe⟩

/-- Settles O47: loading all x + 1 registers where every address exists, and the first j of them where address j is the first
that does not, which the load then raises. -/
theorem loadRegistersFromIndex : Obligations.LoadRegistersFromIndex := by
  refine fun s x => ⟨isWordOf_ldVxMem x, fun hi => ?_, fun j hj hi => ?_⟩
  · obtain ⟨hnone, hval, hframe⟩ := loadRegs_fromI s (n := x.toNat + 1) (by omega) (by omega)
    have hexec : exec (.ldVxMem x) s = .next (loadRegs s.i 0 (x.toNat + 1) s).1 := by
      simp only [exec, execLdVxMem, hnone, finish]
    simp only [Nat.lt_succ_iff] at hval hframe
    exact ⟨_, hexec, hval, hframe⟩
  · obtain ⟨-, hval, hframe⟩ := loadRegs_fromI s (n := j) (by omega) (by omega)
    have hstop := loadRegs_stop s.i (x.toNat + 1) 0 j s (by omega) (by omega)
    have hexec : exec (.ldVxMem x) s = raise (.addressOverflow 0x10000) (loadRegs s.i 0 j s).1 := by
      simp only [exec, execLdVxMem, hstop, finish]
    exact ⟨_, hexec, rfl, hval, raise_changesOnly hframe _⟩

end Sys2Proof.Machine
end

section
/-! The transfers between Vx and the timers (spec/45_keys_timers.md R223, R225, R226). -/

namespace Sys2Proof.Machine

theorem isWordOf_ldVxDT (x : Reg) : isWordOf (0xF007 + 0x100 * x.toNat) (.ldVxDT x) :=
  isWordOf_of_wordXKK (a := 0xF) (x := x) (kk := 0x07) (by simp; omega) (decodeWord_encodeWord (.ldVxDT x))

theorem isWordOf_ldDTVx (x : Reg) : isWordOf (0xF015 + 0x100 * x.toNat) (.ldDTVx x) :=
  isWordOf_of_wordXKK (a := 0xF) (x := x) (kk := 0x15) (by simp; omega) (decodeWord_encodeWord (.ldDTVx x))

theorem isWordOf_ldSTVx (x : Reg) : isWordOf (0xF018 + 0x100 * x.toNat) (.ldSTVx x) :=
  isWordOf_of_wordXKK (a := 0xF) (x := x) (kk := 0x18) (by simp; omega) (decodeWord_encodeWord (.ldSTVx x))

/-- Settles O49: each of the three is one write, of Vx, of DT or of ST. -/
theorem timerRegisterTransfers : Obligations.TimerRegisterTransfers := fun s x =>
  ⟨isWordOf_ldVxDT x, setsRegister_of_setV rfl,
    isWordOf_ldDTVx x, ⟨_, rfl, rfl, s.setDt_changesOnly (s.getV x)⟩,
    isWordOf_ldSTVx x, ⟨_, rfl, rfl, s.setSt_changesOnly (s.getV x)⟩⟩

end Sys2Proof.Machine
end

section
/-! A ROM load and the invariant, and the diagnostic output, which no instruction observes (spec/60_exceptions.md R246, R264). -/

namespace Sys2Proof.Machine

/-! ### A ROM load keeps the invariant -/

@[simp] theorem load_sp (rom : List Byte) (s : State) : (load rom s).sp = s.sp := by
  rw [load, loadFrom_eq]

/-- An overrun records 0x1000, the one info its kind can have (R242, R264). -/
theorem load_run_possible (rom : List Byte) {s : State} (h : s.run.possible = true) : (load rom s).run.possible = true := by
  rw [load_run]
  split
  · exact h
  · rfl

/-- Settles O55: the load leaves SP, keeps memory's canonical form, and an overrun is a state the machine can be in. -/
theorem romLoadKeepsTheInvariant : Obligations.RomLoadKeepsTheInvariant := by
  rintro rom s ⟨hsp, hmem, hrun⟩
  exact ⟨by rwa [load_sp], loadFrom_wf rom 0 s hmem, load_run_possible rom hrun⟩

/-! ### Another diagnostic record in the place of a state's own

Each meaning is shown to commute with the replacement: run from the state with another record, it answers what it answered
before, with that record. -/

def State.setDiagnostics (s : State) (d : List Diagnostic) : State := { s with diagnostics := d }

/-- Another record in the next state of a result; a stop has none. -/
def Result.setDiagnostics (r : Result) (d : List Diagnostic) : Result :=
  match r with
  | .next t => .next (t.setDiagnostics d)
  | .fault e => .fault e
  | .refused e => .refused e

@[simp] theorem State.setDiagnostics_i (s : State) (d : List Diagnostic) : (s.setDiagnostics d).i = s.i := rfl
@[simp] theorem State.setDiagnostics_pc (s : State) (d : List Diagnostic) : (s.setDiagnostics d).pc = s.pc := rfl
@[simp] theorem State.setDiagnostics_fb (s : State) (d : List Diagnostic) : (s.setDiagnostics d).fb = s.fb := rfl
@[simp] theorem State.getV_setDiagnostics (s : State) (d : List Diagnostic) (x : Reg) :
    (s.setDiagnostics d).getV x = s.getV x := rfl
@[simp] theorem State.readByte_setDiagnostics (s : State) (d : List Diagnostic) (a : Addr) :
    (s.setDiagnostics d).readByte a = s.readByte a := rfl
@[simp] theorem State.isPressed_setDiagnostics (s : State) (d : List Diagnostic) (k : Nibble) :
    (s.setDiagnostics d).isPressed k = s.isPressed k := rfl
theorem State.setV_setDiagnostics (s : State) (d : List Diagnostic) (x : Reg) (b : Byte) :
    (s.setDiagnostics d).setV x b = (s.setV x b).setDiagnostics d := rfl

/-! ### The shared operations -/

theorem finish_setDiagnostics (s : State) (d : List Diagnostic) (c : Option FatalCondition) :
    finish (s.setDiagnostics d) c = (finish s c).setDiagnostics d := by
  cases c <;> rfl

theorem skip_setDiagnostics (s : State) (d : List Diagnostic) : skip (s.setDiagnostics d) = (skip s).setDiagnostics d := by
  simp only [skip, State.setDiagnostics_pc]
  cases add16c s.pc 2 <;> rfl

theorem skipIf_setDiagnostics (cond : Bool) (s : State) (d : List Diagnostic) :
    skipIf cond (s.setDiagnostics d) = (skipIf cond s).setDiagnostics d := by
  cases cond with
  | false => rfl
  | true => exact skip_setDiagnostics s d

theorem storeAtI_setDiagnostics (bytes : List Byte) (s : State) (d : List Diagnostic) :
    storeAtI bytes (s.setDiagnostics d) = (storeAtI bytes s).setDiagnostics d :=
  finish_setDiagnostics { s with mem := (storeBytes s.i 0 bytes s.mem).1 } d (storeBytes s.i 0 bytes s.mem).2

theorem loadRegs_setDiagnostics (base : Addr) (d : List Diagnostic) :
    ∀ (n k : Nat) (s : State),
      loadRegs base k n (s.setDiagnostics d) = ((loadRegs base k n s).1.setDiagnostics d, (loadRegs base k n s).2) := by
  intro n
  induction n with
  | zero => intro k s; rfl
  | succ n ih =>
    intro k s
    rcases add16c_cases base k with ⟨-, a, ha, -⟩ | ⟨-, ha⟩ <;> simp only [loadRegs, ha]
    rw [State.readByte_setDiagnostics, State.setV_setDiagnostics, ih]

/-- The rows of a sprite read I, the font and program space alone. -/
theorem drawRows_setDiagnostics (s : State) (d : List Diagnostic) (px py : Nat) :
    ∀ (n r : Nat) (p : Drawing), drawRows (s.setDiagnostics d) px py r n p = drawRows s px py r n p := by
  intro n
  induction n with
  | zero => intro r p; rfl
  | succ n ih =>
    intro r p
    simp only [drawRows, State.setDiagnostics_i, State.readByte_setDiagnostics, ih]

/-! ### The instructions that branch -/

theorem execRet_setDiagnostics (s : State) (d : List Diagnostic) :
    execRet (s.setDiagnostics d) = (execRet s).setDiagnostics d := by
  rcases execRet_cases s with ⟨h0, he⟩ | ⟨h0, hlt, he⟩ | ⟨hgt, he⟩ <;> rw [he]
  · exact if_pos h0
  · exact execRet_of_lt (s := s.setDiagnostics d) h0 hlt
  · exact execRet_of_gt (s := s.setDiagnostics d) hgt

theorem execCall_setDiagnostics (nnn : Imm12) (s : State) (d : List Diagnostic) :
    execCall nnn (s.setDiagnostics d) = (execCall nnn s).setDiagnostics d := by
  rcases execCall_cases nnn s with ⟨h15, he⟩ | ⟨hlt, he⟩ | ⟨hgt, he⟩ <;> rw [he]
  · exact if_pos h15
  · exact execCall_of_lt nnn (s := s.setDiagnostics d) hlt
  · exact execCall_of_gt nnn (s := s.setDiagnostics d) hgt

theorem execLdF_setDiagnostics (x : Reg) (s : State) (d : List Diagnostic) :
    execLdF x (s.setDiagnostics d) = (execLdF x s).setDiagnostics d := by
  simp only [execLdF, State.getV_setDiagnostics]
  cases glyphAddress (s.getV x) <;> rfl

theorem keySkip_setDiagnostics {i : Instr} {x : Reg} (hi : i = .skp x ∨ i = .sknp x) (s : State) (d : List Diagnostic) :
    exec i (s.setDiagnostics d) = Result.setDiagnostics (exec i s) d := by
  rcases hi with rfl | rfl
  all_goals
    simp only [exec, execSkp, execSknp, State.getV_setDiagnostics, State.isPressed_setDiagnostics, skipIf_setDiagnostics]
    cases keyIndex (s.getV x) <;> rfl

theorem execLdVxMem_setDiagnostics (x : Reg) (s : State) (d : List Diagnostic) :
    execLdVxMem x (s.setDiagnostics d) = (execLdVxMem x s).setDiagnostics d := by
  simp only [execLdVxMem, State.setDiagnostics_i, loadRegs_setDiagnostics, finish_setDiagnostics]

theorem execDrw_setDiagnostics (x y : Reg) (n : Nibble) (s : State) (d : List Diagnostic) :
    execDrw x y n (s.setDiagnostics d) = (execDrw x y n s).setDiagnostics d := by
  simp only [execDrw, State.getV_setDiagnostics, State.setDiagnostics_fb, drawRows_setDiagnostics]
  rcases drawRows s (s.getV x).toNat (s.getV y).toNat 0 n.toNat ⟨s.fb, false⟩ with ⟨p, _ | c⟩ <;> rfl

/-! ### Every instruction -/

/-- An instruction without a branch writes parts computed from others than the record, and commutes by computation. -/
theorem exec_setDiagnostics (i : Instr) (s : State) (d : List Diagnostic) :
    exec i (s.setDiagnostics d) = Result.setDiagnostics (exec i s) d := by
  cases i with
  | ret => exact execRet_setDiagnostics s d
  | call nnn => exact execCall_setDiagnostics nnn s d
  | seImm | sneImm | seReg | sneReg => exact skipIf_setDiagnostics _ s d
  | drw x y n => exact execDrw_setDiagnostics x y n s d
  | skp x => exact keySkip_setDiagnostics (.inl rfl) s d
  | sknp x => exact keySkip_setDiagnostics (.inr rfl) s d
  | ldF x => exact execLdF_setDiagnostics x s d
  | ldB x => exact storeAtI_setDiagnostics (bcdDigits (s.getV x)) s d
  | ldMemVx x => exact storeAtI_setDiagnostics (s.regsUpTo x) s d
  | ldVxMem x => exact execLdVxMem_setDiagnostics x s d
  | _ => rfl

/-- Settles O52: every instruction commutes with a change of the record. -/
theorem diagnosticsAreNotObserved : Obligations.DiagnosticsAreNotObserved := by
  intro i s t d h
  calc exec i (s.setDiagnostics d) = Result.setDiagnostics (exec i s) d := exec_setDiagnostics i s d
    _ = .next (t.setDiagnostics d) := by rw [h]; rfl

end Sys2Proof.Machine
end
